-- ==== Sys2Proof/Word.lean ====
section
/-! DEFINITION. The word types of the Bignum core, the names of its two slots, and the value types its rules
speak of: a representation, a sign, an overflow cause, a decoder's result (spec 00_scope.md R6, R10, R12, R14). -/

namespace Sys2Proof

/-- A 32-bit register or bus word (`bits32` of R9). -/
abbrev Word32 := BitVec 32

/-- The 64-bit native register DATA (R22). -/
abbrev Word64 := BitVec 64

/-- One byte lane of a bus that carries a word as bytes (R53). -/
abbrev Byte := BitVec 8

/-- A slot name: `a` is slot index 0 and `b` is slot index 1 (R14, R23). -/
inductive Slot where
  | a
  | b
  deriving DecidableEq, Repr

/-- The slot that is not this one. -/
def Slot.other : Slot → Slot
  | .a => .b
  | .b => .a

/-- A representation `(tail, head)`, the head most significant word first (R10). The absent head and the
empty head are both `[]`. -/
structure Rep where
  tail : Word32
  head : List Word32
  deriving DecidableEq, Repr

/-- The value of the sign test, -1, 0 or +1 (R171). -/
inductive Sign where
  | neg
  | zero
  | pos
  deriving DecidableEq, Repr

/-- The cause that `raise Overflow(cause)` carries (R11, R242). -/
inductive OverflowCause where
  | mag
  | neg
  deriving DecidableEq, Repr

/-- The result of a decoder: `OK(n)` or `OVF(cause)` (R12). -/
inductive DecResult where
  | ok (n : Int)
  | ovf (cause : OverflowCause)
  deriving DecidableEq, Repr

end Sys2Proof
end

