-- ==== Sys2Proof/Syntax.lean ====
section
/-! DEFINITION. The ten commands of the block, one constructor per row of spec/opcode_table.json
(spec 30_encoding.md R81, R82). -/

namespace Sys2Proof

/-- A command. Every command but EQ names the slot it works on; DATA is implicit, and EQ reads both slots
(R81). -/
inductive Instr where
  | encI32 (x : Slot)
  | encU32 (x : Slot)
  | encI64 (x : Slot)
  | encU64 (x : Slot)
  | decI32 (x : Slot)
  | decU32 (x : Slot)
  | decI64 (x : Slot)
  | decU64 (x : Slot)
  | sgn (x : Slot)
  | eq
  deriving DecidableEq, Repr

end Sys2Proof
end

