-- ==== Sys2Proof/Decode.lean ====
section
/-! DEFINITION. The command word: its fields, its decoder (total on every word and every byte list, rejecting by
name) and the encoder written from the same opcode map (spec 30_encoding.md R80 to R85, 20_memory.md R53). -/

namespace Sys2Proof

/-- Why a word is no command (R83), or why bytes are no command word (R84). -/
inductive DecodeReject where
  /-- `w[31:5] != 0` (R83 a). -/
  | reservedBits
  /-- OP = 0x0 or OP in 0xB..0xF (R83 b). -/
  | reservedOpcode
  /-- The word 0x0000001A, EQ with SLOT = 1 (R83 c). -/
  | eqSlotB
  /-- Not exactly the four bytes of one 32-bit CMD write (R84). -/
  | notOneWord
  deriving DecidableEq, Repr

/-- What the decoder answers: a command, or a rejection by name. -/
inductive Decoded where
  | command (i : Instr)
  | reject (r : DecodeReject)
  deriving DecidableEq, Repr

/-- The field OP, bits 3:0 (R80). -/
def opField (w : Word32) : BitVec 4 := w.extractLsb' 0 4

/-- The field SLOT, bit 4: 0 = slot A, 1 = slot B (R80). -/
def slotField (w : Word32) : Slot := if w.getLsbD 4 then .b else .a

/-- The field RSV, bits 31:5 (R80). -/
def rsvField (w : Word32) : BitVec 27 := w.extractLsb' 5 27

/-- The decoder of command words: the tests of `ExecuteCommand` in their order (R85), with the illegal words of
R83 named. -/
def decodeWord (w : Word32) : Decoded :=
  if rsvField w ≠ 0 then .reject .reservedBits
  else
    match (opField w).toNat with
    | 0x1 => .command (.encI32 (slotField w))
    | 0x2 => .command (.encU32 (slotField w))
    | 0x3 => .command (.encI64 (slotField w))
    | 0x4 => .command (.encU64 (slotField w))
    | 0x5 => .command (.decI32 (slotField w))
    | 0x6 => .command (.decU32 (slotField w))
    | 0x7 => .command (.decI64 (slotField w))
    | 0x8 => .command (.decU64 (slotField w))
    | 0x9 => .command (.sgn (slotField w))
    | 0xA => if slotField w = .a then .command .eq else .reject .eqSlotB
    | _ => .reject .reservedOpcode

/-- The word whose byte `k` is the `k`-th of these: bit `8k+j` of the word is bit `j` of byte `k` (R53). -/
def wordOfBytes (b0 b1 b2 b3 : Byte) : Word32 := b3 ++ b2 ++ b1 ++ b0

/-- Byte `k` of a word, `k` from 0 to 3 (R53). -/
def byteOfWord (w : Word32) (k : Nat) : Byte := w.extractLsb' (8 * k) 8

/-- The decoder on the bytes of a CMD write, byte 0 first (R53, R84). -/
def decodeBytes : List Byte → Decoded
  | [b0, b1, b2, b3] => decodeWord (wordOfBytes b0 b1 b2 b3)
  | _ => .reject .notOneWord

/-- The opcode OP of each command (R82). -/
def Instr.opcode : Instr → BitVec 4
  | .encI32 _ => 0x1
  | .encU32 _ => 0x2
  | .encI64 _ => 0x3
  | .encU64 _ => 0x4
  | .decI32 _ => 0x5
  | .decU32 _ => 0x6
  | .decI64 _ => 0x7
  | .decU64 _ => 0x8
  | .sgn _ => 0x9
  | .eq => 0xA

/-- The slot a command names; EQ must have SLOT = 0 (R81). -/
def Instr.slotOperand : Instr → Slot
  | .encI32 x => x
  | .encU32 x => x
  | .encI64 x => x
  | .encU64 x => x
  | .decI32 x => x
  | .decU32 x => x
  | .decI64 x => x
  | .decU64 x => x
  | .sgn x => x
  | .eq => .a

/-- The SLOT bit of a slot: 0 for A, 1 for B (R80). -/
def slotBit : Slot → BitVec 1
  | .a => 0
  | .b => 1

/-- The word of a command: RSV = 0, SLOT, OP (R80, R82). -/
def encode (i : Instr) : Word32 := (0 : BitVec 27) ++ slotBit i.slotOperand ++ i.opcode

/-- The mnemonic of each command (R82). -/
def Instr.mnemonic : Instr → String
  | .encI32 _ => "ENC_I32"
  | .encU32 _ => "ENC_U32"
  | .encI64 _ => "ENC_I64"
  | .encU64 _ => "ENC_U64"
  | .decI32 _ => "DEC_I32"
  | .decU32 _ => "DEC_U32"
  | .decI64 _ => "DEC_I64"
  | .decU64 _ => "DEC_U64"
  | .sgn _ => "SGN"
  | .eq => "EQ"

/-- The command the decoder reads from a table word of `nbits` bits, every bit above `nbits` being 0: the word is
laid out as four bytes, byte 0 first, and given to `decodeBytes`. A number of more than 32 bits is no command word
(DEDUCED, assumption log 11). -/
def decodeTableWord (nbits w : Nat) : Option Instr :=
  let v := w % 2 ^ nbits
  if v < 2 ^ 32 then
    let word := BitVec.ofNat 32 v
    match decodeBytes [byteOfWord word 0, byteOfWord word 1, byteOfWord word 2, byteOfWord word 3] with
    | .command i => some i
    | .reject _ => none
  else none

end Sys2Proof
end

