-- ==== Sys2Proof/Config.lean ====
section
/-! DEFINITION. The two implementation parameters of the block (spec 00_scope.md R7). They are data that every
definition takes from the state it is given, so a statement over all states is a statement over all parameters. -/

namespace Sys2Proof

/-- The parameter SIGN_ZERO_TEST: which zero test the sign test uses (R7, R170). -/
inductive SignZeroTest where
  | full
  | coded
  deriving DecidableEq, Repr

/-- The parameters of one built block, constant for its life (R7). -/
structure Params where
  headCap : Nat
  signZeroTest : SignZeroTest
  deriving DecidableEq, Repr

/-- The defaults the spec names: HEAD_CAP = 4 and SIGN_ZERO_TEST = FULL (R7). -/
def Params.default : Params where
  headCap := 4
  signZeroTest := .full

end Sys2Proof
end

