-- ==== Sys2Proof/Machine/State.lean ====
section
/-! DEFINITION. The state of the Bignum core as plain data, the reasons a step can stop, and the state after reset
(spec 10_state.md R20 to R39, 70_reset_and_hazards.md R270). -/

namespace Sys2Proof.Machine

/-- The registers of one slot (R23, R24). `head` lists HEAD[s][0] to HEAD[s][HEAD_CAP-1]. -/
structure SlotRegs where
  tail : Word32
  hlen : Nat
  head : List Word32
  deriving DecidableEq, Repr

/-- The defined fields of STATUS (R28). The reserved bits 31:6 are never written and read as 0, so they hold
nothing (DESIGN CHOICE, assumption log 8). -/
structure Status where
  ovf : Bool
  neg : Bool
  ill : Bool
  eq : Bool
  sgn : BitVec 2
  deriving DecidableEq, Repr

/-- One thing the outside does to the block: a host read or write of `bytes` bytes at a byte offset of the window
(R54, R57), or the platform's reset (R270). Accesses the interface does not have (R54) can be written down here, so
that the step can refuse them. -/
inductive HostAccess where
  | read (offset bytes : Nat)
  | write (offset bytes : Nat) (value : Word32)
  | reset
  deriving DecidableEq, Repr

/-- The whole state. `params` is the content of the constant register CAPS (R27); `data`, `slotA`, `slotB` and
`status` are the registers of R20; CMD stores nothing (R35). `inputs` and `trace` are the model's own: the accesses
the host and the platform have still to make, in issue order (R59), and the values that the host's reads returned so
far, oldest first (R90); both are a DESIGN CHOICE (assumption log 2), and so is holding `params` here (log 1). -/
structure State where
  params : Params
  data : Word64
  slotA : SlotRegs
  slotB : SlotRegs
  status : Status
  inputs : List HostAccess
  trace : List Word32
  deriving DecidableEq, Repr

/-- The block has no trap and no fault: every host access completes (R240). So there is no reason to fault
(DEDUCED, assumption log 7). -/
inductive Fault where
  deriving DecidableEq, Repr

/-- The reasons for which the model gives an access no step; the names are a DESIGN CHOICE (assumption log 6). -/
inductive Refusal where
  /-- Raised by `exec` for a command that has no meaning in the model; no arm of `exec` raises it. Safe. -/
  | notModelled (mnemonic : String)
  /-- Raised by the step for an access that is not 4 bytes wide (R54). Safe: the machine stops. -/
  | accessWidth
  /-- Raised by the step for a 4-byte access at an offset that is no multiple of 4 (R54). Safe: the machine stops. -/
  | accessMisaligned
  /-- Raised by the step for an aligned 4-byte access at an offset at or beyond 0x0C0 (R54). Safe: the machine
  stops. -/
  | accessOutsideWindow
  deriving DecidableEq, Repr

/-- A slot after reset: TAIL and every HEAD word 0x00000000, HLEN 0 (R23, R24, R270). -/
def SlotRegs.reset (cap : Nat) : SlotRegs where
  tail := 0
  hlen := 0
  head := List.replicate cap 0

/-- STATUS after reset: 0x00000000 (R28, R270). -/
def Status.reset : Status where
  ovf := false
  neg := false
  ill := false
  eq := false
  sgn := 0

/-- The state of a block with parameters `p` right after reset, with no access pending (R270). -/
def State.resetWith (p : Params) : State where
  params := p
  data := 0
  slotA := SlotRegs.reset p.headCap
  slotB := SlotRegs.reset p.headCap
  status := Status.reset
  inputs := []
  trace := []

/-- The state right after reset of a block with the default parameters (R7, R270). -/
def State.reset : State := State.resetWith Params.default

end Sys2Proof.Machine
end

