-- ==== Sys2Proof/Machine/Flags.lean ====
section
/-! DEFINITION. STATUS: the word the host reads, and every change a command makes to it
(spec 10_state.md R28 to R34, 60_exceptions.md R241 to R243). -/

namespace Sys2Proof.Machine

/-- The 32 bits of STATUS: bits 31:6 zero, then SGN, EQ, ILL, NEG, OVF (R28). -/
def Status.toWord (f : Status) : Word32 :=
  (0 : BitVec 26) ++ f.sgn ++ BitVec.ofBool f.eq ++ BitVec.ofBool f.ill ++ BitVec.ofBool f.neg ++
    BitVec.ofBool f.ovf

/-- A command succeeded: OVF, NEG and ILL become 0, EQ and SGN stay (R34). -/
def Status.succeed (f : Status) : Status := { f with ovf := false, neg := false, ill := false }

/-- `raise Overflow(cause)` in STATUS: OVF 1, NEG 1 iff the cause is NEG, ILL 0 (R241). -/
def Status.overflow (cause : OverflowCause) (f : Status) : Status :=
  { f with ovf := true, neg := decide (cause = .neg), ill := false }

/-- `raise IllegalCommand()` in STATUS: ILL 1, OVF 0, NEG 0 (R243). -/
def Status.illegal (f : Status) : Status := { f with ovf := false, neg := false, ill := true }

/-- The result of SGN (R33, R172). -/
def Status.withSgn (code : BitVec 2) (f : Status) : Status := { f with sgn := code }

/-- The result of EQ (R32, R221). -/
def Status.withEq (result : Bool) (f : Status) : Status := { f with eq := result }

end Sys2Proof.Machine
end

