-- ==== Sys2Proof/Machine/Operands.lean ====
section
/-! DEFINITION. The operand forms: the four native values a command reads from DATA, the three forms in which a
decoder writes DATA, the two host halves of DATA, and CAPS (spec 10_state.md R22, R27, 30_encoding.md R89). -/

namespace Sys2Proof.Machine

/-- `DATA_LO = DATA[31:0]` (R22). -/
def dataLo (d : Word64) : Word32 := d.extractLsb' 0 32

/-- `DATA_HI = DATA[63:32]` (R22). -/
def dataHi (d : Word64) : Word32 := d.extractLsb' 32 32

/-- `DATA[31:0] <- v` (R57). -/
def withDataLo (v : Word32) (d : Word64) : Word64 := dataHi d ++ v

/-- `DATA[63:32] <- v` (R57). -/
def withDataHi (v : Word32) (d : Word64) : Word64 := v ++ dataLo d

/-- ENC_I32 reads `s32(DATA[31:0])` (R22). -/
def nativeI32 (d : Word64) : Int := (dataLo d).toInt

/-- ENC_U32 reads `u32(DATA[31:0])` (R22). -/
def nativeU32 (d : Word64) : Nat := (dataLo d).toNat

/-- ENC_I64 reads `s64(DATA)` (R22). -/
def nativeI64 (d : Word64) : Int := d.toInt

/-- ENC_U64 reads `u64(DATA)` (R22). -/
def nativeU64 (d : Word64) : Nat := d.toNat

/-- DEC_I32 writes `sext_64(bv32(k))` (R182). -/
def sext64 (k : Int) : Word64 := (BitVec.ofInt 32 k).signExtend 64

/-- DEC_U32 writes `zext_64(bv32(k))` (R184). -/
def zext64 (k : Int) : Word64 := (BitVec.ofInt 32 k).setWidth 64

/-- DEC_I64 and DEC_U64 write `bv64(k)` (R186, R188). -/
def bv64 (k : Int) : Word64 := BitVec.ofInt 64 k

/-- CAPS[4]: 0 = FULL, 1 = CODED (R27). -/
def sztBit : SignZeroTest → BitVec 1
  | .full => 0
  | .coded => 1

/-- The 32 bits of CAPS: bits 31:5 zero, SZT in bit 4, HEAD_CAP in bits 3:0 (R27). -/
def capsWord (p : Params) : Word32 :=
  (0 : BitVec 27) ++ sztBit p.signZeroTest ++ BitVec.ofNat 4 p.headCap

end Sys2Proof.Machine
end

