-- ==== Sys2Proof/Machine/Representation.lean ====
section
/-! DEFINITION. The functions on representations, exact over the integers: PACK, UNPACK, MAG, VAL, CANON
(spec 40_layout_pack_unpack.md), the four encoder functions (41_encoders.md), the sign test (42_sign.md), the four
decoder functions (43_decoders.md) and equality (44_equality.md). Each is transcribed from its own rule; that two of
them agree is stated, not built in. -/

namespace Sys2Proof.Machine

/-- `base(rep) = u32(tail[30:0])` (R10). -/
def base (r : Rep) : Nat := (r.tail.extractLsb' 0 31).toNat

/-- `sbit(rep) = tail[31]`, true for 1 (R10). -/
def sbit (r : Rep) : Bool := r.tail.getLsbD 31

/-- The number of a sign bit. -/
def signBit (sb : Bool) : Nat := if sb then 1 else 0

/-- PACK: magnitude to limbs, for `m < 2^64` (R115). -/
def pack (sb : Bool) (m : Nat) : Rep :=
  let tail := BitVec.ofNat 32 (2 ^ 31 * signBit sb + m % 2 ^ 31)
  let r := m / 2 ^ 31
  if r = 0 then ⟨tail, []⟩
  else if r < 2 ^ 32 then ⟨tail, [BitVec.ofNat 32 r]⟩
  else ⟨tail, [BitVec.ofNat 32 (r / 2 ^ 32), BitVec.ofNat 32 (r % 2 ^ 32)]⟩

/-- UNPACK: limbs to magnitude; `none` is TOO_WIDE (R117). -/
def unpack (r : Rep) : Option Nat :=
  match r.head with
  | [] => some (base r)
  | [h0] => some (base r + 2 ^ 31 * h0.toNat)
  | [h0, h1] => if h0.toNat ≤ 1 then some (base r + 2 ^ 63 * h0.toNat + 2 ^ 31 * h1.toNat) else none
  | _ :: _ :: _ :: _ => none

/-- MAG: the magnitude by the limb weights of R112, `none` where the spec defines none: a head longer than 2, or a
two-word head whose first word is above 1 (R88, R111, R112, R113). -/
def mag (r : Rep) : Option Nat :=
  match r.head with
  | [] => some (base r)
  | [h0] => some (base r + 2 ^ 31 * h0.toNat)
  | [h0, h1] => if 1 < h0.toNat then none else some (base r + 2 ^ 31 * h1.toNat + 2 ^ 63 * h0.toNat)
  | _ :: _ :: _ :: _ => none

/-- VAL: the numeric value, `none` where MAG is undefined (R114). -/
def val (r : Rep) : Option Int :=
  (mag r).map fun m => if m = 0 then 0 else if sbit r then -(m : Int) else (m : Int)

/-- CANON(n), the representation the encoders give the integer `n` (R120). -/
def canon (n : Int) : Rep := pack (decide (n < 0)) n.natAbs

/-- Membership of CANON: `PACK(0, m)` for `0 <= m <= 2^64-1`, or `PACK(1, m)` for `1 <= m <= 2^63` (R118). -/
def Canonical (r : Rep) : Prop :=
  (∃ m, m < 2 ^ 64 ∧ r = pack false m) ∨ (∃ m, 1 ≤ m ∧ m ≤ 2 ^ 63 ∧ r = pack true m)

/-- `enc_i32(v)` for v in [-2^31, 2^31-1] (R141). -/
def encI32 (v : Int) : Rep :=
  if v = -2 ^ 31 then ⟨0x80000000, [0x00000001]⟩
  else ⟨BitVec.ofNat 32 (2 ^ 31 * signBit (decide (v < 0)) + v.natAbs), []⟩

/-- `enc_u32(v)` for v in [0, 2^32-1] (R143). -/
def encU32 (v : Nat) : Rep :=
  let tail := BitVec.ofNat 32 (v % 2 ^ 31)
  if v / 2 ^ 31 = 1 then ⟨tail, [0x00000001]⟩ else ⟨tail, []⟩

/-- `enc_i64(v)` for v in [-2^63, 2^63-1] (R145). -/
def encI64 (v : Int) : Rep :=
  if v = -2 ^ 63 then ⟨0x80000000, [0x00000001, 0x00000000]⟩
  else
    let m := v.natAbs
    let tail := BitVec.ofNat 32 (2 ^ 31 * signBit (decide (v < 0)) + m % 2 ^ 31)
    let top := m / 2 ^ 31
    if top ≠ 0 then ⟨tail, [BitVec.ofNat 32 top]⟩ else ⟨tail, []⟩

/-- `enc_u64(v)` for v in [0, 2^64-1] (R147). -/
def encU64 (v : Nat) : Rep :=
  let tail := BitVec.ofNat 32 (v % 2 ^ 31)
  let r := v / 2 ^ 31
  let chunk1 := BitVec.ofNat 32 (r % 2 ^ 32)
  let chunk2 := BitVec.ofNat 32 (r / 2 ^ 32 % 2)
  if chunk1 = 0 ∧ chunk2 = 0 then ⟨tail, []⟩
  else if chunk2 = 0 then ⟨tail, [chunk1]⟩
  else ⟨tail, [chunk2, chunk1]⟩

/-- ISZERO under either setting of SIGN_ZERO_TEST (R170). -/
def isZero (z : SignZeroTest) (r : Rep) : Bool :=
  match z with
  | .full => base r == 0 && r.head.all fun h => h == 0
  | .coded => base r == 0 && r.head.length == 0

/-- SIGNOF (R171). -/
def signOf (z : SignZeroTest) (r : Rep) : Sign :=
  if isZero z r then .zero else if sbit r then .neg else .pos

/-- The integer of a sign, by which the decoders multiply (R12). -/
def signInt : Sign → Int
  | .neg => -1
  | .zero => 0
  | .pos => 1

/-- The 2-bit two's-complement code of a sign in STATUS.SGN (R33). -/
def signCode : Sign → BitVec 2
  | .zero => 0b00
  | .pos => 0b01
  | .neg => 0b11

/-- `dec_i32` (R181). -/
def decI32 (z : SignZeroTest) (r : Rep) : DecResult :=
  match r.head with
  | [] => .ok (base r * signInt (signOf z r))
  | [h0] => if h0.toNat = 1 ∧ r.tail = 0x80000000 then .ok (-2 ^ 31) else .ovf .mag
  | _ :: _ :: _ => .ovf .mag

/-- `dec_u32`: the sign test comes first (R183). -/
def decU32 (z : SignZeroTest) (r : Rep) : DecResult :=
  if signOf z r = .neg then .ovf .neg
  else
    match r.head with
    | [] => .ok (base r)
    | [h0] => if 1 < h0.toNat then .ovf .mag else .ok (base r + 2 ^ 31 * h0.toNat)
    | _ :: _ :: _ => .ovf .mag

/-- `dec_i64` (R185); the empty head gives base times sign. -/
def decI64 (z : SignZeroTest) (r : Rep) : DecResult :=
  match r.head with
  | [] => .ok (base r * signInt (signOf z r))
  | [h0] => .ok ((base r + 2 ^ 31 * h0.toNat) * signInt (signOf z r))
  | [h0, h1] =>
    if h0.toNat = 1 ∧ h1.toNat = 0 ∧ r.tail = 0x80000000 then .ok (-2 ^ 63) else .ovf .mag
  | _ :: _ :: _ :: _ => .ovf .mag

/-- `dec_u64`: the sign test comes first, then UNPACK (R187). -/
def decU64 (z : SignZeroTest) (r : Rep) : DecResult :=
  if signOf z r = .neg then .ovf .neg
  else
    match unpack r with
    | some m => .ok m
    | none => .ovf .mag

/-- `eq(a, b)`: structural, on all 32 bits of the tail and of every head word (R220). -/
def eqRep (r q : Rep) : Bool :=
  r.tail == q.tail && (r.head.length == q.head.length &&
    (List.zipWith (fun h k => h == k) r.head q.head).all id)

end Sys2Proof.Machine
end

