-- ==== Sys2Proof/Machine/Ops.lean ====
section
/-! DEFINITION. The shared operations on the state: reading and writing a slot, the ways a command ends, the
platform's reset, the registers of the window and which accesses the interface has
(spec 10_state.md R23 to R26, 20_memory.md R51 to R57, 60_exceptions.md R241 to R243, 70_reset_and_hazards.md R270). -/

namespace Sys2Proof.Machine

/-- The registers of slot `x` (R23). -/
def State.slot (s : State) : Slot → SlotRegs
  | .a => s.slotA
  | .b => s.slotB

/-- The state with the registers of slot `x` replaced. -/
def State.setSlot (s : State) (x : Slot) (r : SlotRegs) : State :=
  match x with
  | .a => { s with slotA := r }
  | .b => { s with slotB := r }

/-- The register HEAD[x][i]; an index without a register reads as 0 (R23, R52). -/
def State.headWord (s : State) (x : Slot) (i : Nat) : Word32 := (s.slot x).head.getD i 0

/-- `ReadSlot(x)`: the tail and the first HLEN head words (R25). -/
def State.readSlot (s : State) (x : Slot) : Rep :=
  ⟨(s.slot x).tail, (s.slot x).head.take (s.slot x).hlen⟩

/-- The registers that `WriteSlot` leaves in a slot of capacity `cap`: the head words beyond the new length are
cleared (R26). -/
def slotOfRep (cap : Nat) (r : Rep) : SlotRegs where
  tail := r.tail
  hlen := r.head.length
  head := r.head ++ List.replicate (cap - r.head.length) 0

/-- `WriteSlot(x, rep)` (R26). -/
def State.writeSlot (s : State) (x : Slot) (r : Rep) : State := s.setSlot x (slotOfRep s.params.headCap r)

/-- A command that raises nothing clears OVF, NEG and ILL (R34). -/
def State.succeed (s : State) : State := { s with status := s.status.succeed }

/-- `raise Overflow(cause)`: STATUS only (R241). -/
def State.raiseOverflow (cause : OverflowCause) (s : State) : State :=
  { s with status := s.status.overflow cause }

/-- `raise IllegalCommand()`: STATUS only (R243). -/
def State.raiseIllegal (s : State) : State := { s with status := s.status.illegal }

/-- The end of an encoder command: write the slot, clear the outcome bits (R140). -/
def finishEncode (x : Slot) (r : Rep) (s : State) : Host.Outcome State Fault Refusal :=
  .next (s.writeSlot x r).succeed

/-- The end of a decoder command: on OK write DATA in the target's form and clear the outcome bits, on OVF raise
the overflow (R180). -/
def finishDecode (toData : Int → Word64) (res : DecResult) (s : State) : Host.Outcome State Fault Refusal :=
  match res with
  | .ok k => .next { s with data := toData k }.succeed
  | .ovf cause => .next (s.raiseOverflow cause)

/-- The platform's reset: every register to its reset value, CAPS unchanged; what the host has still to issue and
has already read is not the block's and stays (R270; DESIGN CHOICE, assumption log 5). -/
def State.platformReset (s : State) : State :=
  { State.resetWith s.params with inputs := s.inputs, trace := s.trace }

/-- A register of the window, by name (R51). -/
inductive WindowReg where
  | cmd
  | status
  | dataLo
  | dataHi
  | caps
  | tail (x : Slot)
  | hlen (x : Slot)
  | head (x : Slot) (i : Nat)
  | reserved
  deriving DecidableEq, Repr

/-- The slot base: 0x040 for slot A, 0x080 for slot B (R51). -/
def slotBase : Slot → Nat
  | .a => 0x040
  | .b => 0x080

/-- The register at offset `rel` of a slot's block, with `cap` head registers (R51). -/
def slotReg (cap : Nat) (x : Slot) (rel : Nat) : WindowReg :=
  if rel = 0x00 then .tail x
  else if rel = 0x04 then .hlen x
  else if 0x10 ≤ rel ∧ (rel - 0x10) % 4 = 0 ∧ (rel - 0x10) / 4 < cap then .head x ((rel - 0x10) / 4)
  else .reserved

/-- The register at a window offset, with `cap` head registers in each slot (R51). -/
def windowReg (cap : Nat) (offset : Nat) : WindowReg :=
  if offset = 0x000 then .cmd
  else if offset = 0x004 then .status
  else if offset = 0x008 then .dataLo
  else if offset = 0x00C then .dataHi
  else if offset = 0x010 then .caps
  else if 0x040 ≤ offset ∧ offset < 0x080 then slotReg cap .a (offset - 0x040)
  else if 0x080 ≤ offset ∧ offset < 0x0C0 then slotReg cap .b (offset - 0x080)
  else .reserved

/-- The value a read of a register returns: CMD and reserved offsets read 0 (R52, R57). -/
def State.readReg (s : State) : WindowReg → Word32
  | .cmd => 0
  | .status => s.status.toWord
  | .dataLo => dataLo s.data
  | .dataHi => dataHi s.data
  | .caps => capsWord s.params
  | .tail x => (s.slot x).tail
  | .hlen x => BitVec.ofNat 32 (s.slot x).hlen
  | .head x i => s.headWord x i
  | .reserved => 0

/-- The value a read at a window offset returns (R57). -/
def State.windowRead (s : State) (offset : Nat) : Word32 := s.readReg (windowReg s.params.headCap offset)

/-- A write of a register other than CMD: DATA_LO, DATA_HI, TAIL and HEAD store, HLEN stores a value up to
HEAD_CAP, and STATUS, CAPS and reserved offsets ignore it (R24, R56, R57). -/
def State.writeReg (s : State) (v : Word32) : WindowReg → State
  | .cmd => s
  | .status => s
  | .dataLo => { s with data := withDataLo v s.data }
  | .dataHi => { s with data := withDataHi v s.data }
  | .caps => s
  | .tail x => s.setSlot x { s.slot x with tail := v }
  | .hlen x => if v.toNat ≤ s.params.headCap then s.setSlot x { s.slot x with hlen := v.toNat } else s
  | .head x i => s.setSlot x { s.slot x with head := (s.slot x).head.set i v }
  | .reserved => s

/-- Why an access of `bytes` bytes at `offset` is outside the interface, or `none` for a 32-bit access at a
4-byte-aligned offset in 0x000 to 0x0BF (R54; the order of the tests is a DESIGN CHOICE, assumption log 6). -/
def accessRefusal (offset bytes : Nat) : Option Refusal :=
  if bytes ≠ 4 then some .accessWidth
  else if offset % 4 ≠ 0 then some .accessMisaligned
  else if 0x0C0 ≤ offset then some .accessOutsideWindow
  else none

/-- The next access in issue order, and the state with it taken off the list; `none` when the host has issued
nothing (R13, R59). -/
def State.takeAccess (s : State) : Option (HostAccess × State) :=
  match s.inputs with
  | [] => none
  | a :: rest => some (a, { s with inputs := rest })

/-- A read's value is reported to the host (R90). -/
def State.report (v : Word32) (s : State) : State := { s with trace := s.trace ++ [v] }

end Sys2Proof.Machine
end

