-- ==== Sys2Proof/Machine/Decoders.lean ====
section
/-! DEFINITION. The four decoder commands (spec 43_decoders.md R180, R182, R184, R186, R188). -/

namespace Sys2Proof.Machine

/-- DEC_I32 (R182). -/
def execDecI32 (x : Slot) (s : State) : Host.Outcome State Fault Refusal :=
  finishDecode sext64 (decI32 s.params.signZeroTest (s.readSlot x)) s

/-- DEC_U32 (R184). -/
def execDecU32 (x : Slot) (s : State) : Host.Outcome State Fault Refusal :=
  finishDecode zext64 (decU32 s.params.signZeroTest (s.readSlot x)) s

/-- DEC_I64 (R186). -/
def execDecI64 (x : Slot) (s : State) : Host.Outcome State Fault Refusal :=
  finishDecode bv64 (decI64 s.params.signZeroTest (s.readSlot x)) s

/-- DEC_U64 (R188). -/
def execDecU64 (x : Slot) (s : State) : Host.Outcome State Fault Refusal :=
  finishDecode bv64 (decU64 s.params.signZeroTest (s.readSlot x)) s

end Sys2Proof.Machine
end

