-- ==== Sys2Proof/Machine/Encoders.lean ====
section
/-! DEFINITION. The four encoder commands (spec 41_encoders.md R140, R142, R144, R146, R148). -/

namespace Sys2Proof.Machine

/-- ENC_I32 (R142). -/
def execEncI32 (x : Slot) (s : State) : Host.Outcome State Fault Refusal :=
  finishEncode x (encI32 (nativeI32 s.data)) s

/-- ENC_U32 (R144). -/
def execEncU32 (x : Slot) (s : State) : Host.Outcome State Fault Refusal :=
  finishEncode x (encU32 (nativeU32 s.data)) s

/-- ENC_I64 (R146). -/
def execEncI64 (x : Slot) (s : State) : Host.Outcome State Fault Refusal :=
  finishEncode x (encI64 (nativeI64 s.data)) s

/-- ENC_U64 (R148). -/
def execEncU64 (x : Slot) (s : State) : Host.Outcome State Fault Refusal :=
  finishEncode x (encU64 (nativeU64 s.data)) s

end Sys2Proof.Machine
end

