-- ==== Sys2Proof/Machine/Queries.lean ====
section
/-! DEFINITION. The two commands whose result goes to STATUS: SGN (spec 42_sign.md R172) and EQ
(44_equality.md R221). -/

namespace Sys2Proof.Machine

/-- SGN (R172). -/
def execSgn (x : Slot) (s : State) : Host.Outcome State Fault Refusal :=
  let code := signCode (signOf s.params.signZeroTest (s.readSlot x))
  .next { s with status := (s.status.withSgn code).succeed }

/-- EQ: slot A against slot B (R221). -/
def execEq (s : State) : Host.Outcome State Fault Refusal :=
  let result := eqRep (s.readSlot .a) (s.readSlot .b)
  .next { s with status := (s.status.withEq result).succeed }

end Sys2Proof.Machine
end

