-- ==== Sys2Proof/Machine/Dispatch.lean ====
section
/-! DEFINITION. The meaning of each command, one arm per constructor (spec 30_encoding.md R82, R85). -/

namespace Sys2Proof.Machine

/-- What one command does (R82, R85). -/
def exec (i : Instr) (s : State) : Host.Outcome State Fault Refusal :=
  match i with
  | .encI32 x => Sys2Proof.Machine.execEncI32 x s
  | .encU32 x => Sys2Proof.Machine.execEncU32 x s
  | .encI64 x => Sys2Proof.Machine.execEncI64 x s
  | .encU64 x => Sys2Proof.Machine.execEncU64 x s
  | .decI32 x => Sys2Proof.Machine.execDecI32 x s
  | .decU32 x => Sys2Proof.Machine.execDecU32 x s
  | .decI64 x => Sys2Proof.Machine.execDecI64 x s
  | .decU64 x => Sys2Proof.Machine.execDecU64 x s
  | .sgn x => Sys2Proof.Machine.execSgn x s
  | .eq => Sys2Proof.Machine.execEq s

end Sys2Proof.Machine
end

