-- ==== Sys2Proof/Machine/Window.lean ====
section
/-! DEFINITION. What a host access does: MemRead, MemWrite with ExecuteCommand behind CMD, and the platform's reset
(spec 20_memory.md R54 to R60, 30_encoding.md R85, R86, 70_reset_and_hazards.md R270). -/

namespace Sys2Proof.Machine

/-- `ExecuteCommand(w)`: a legal word runs its command, an illegal one raises IllegalCommand (R85, R243). -/
def executeCommand (w : Word32) (s : State) : Host.Outcome State Fault Refusal :=
  match decodeWord w with
  | .command i => exec i s
  | .reject _ => .next s.raiseIllegal

/-- `MemRead(offset, bytes)`: refused outside the interface, else the value read is reported and nothing else
changes (R54, R56, R57). -/
def memRead (offset bytes : Nat) (s : State) : Host.Outcome State Fault Refusal :=
  match accessRefusal offset bytes with
  | some r => .refused r
  | none => .next (s.report (s.windowRead offset))

/-- `MemWrite(offset, bytes, v)`: refused outside the interface, a command at CMD, else a register write
(R54, R57). -/
def memWrite (offset bytes : Nat) (v : Word32) (s : State) : Host.Outcome State Fault Refusal :=
  match accessRefusal offset bytes with
  | some r => .refused r
  | none =>
    match windowReg s.params.headCap offset with
    | .cmd => executeCommand v s
    | reg => .next (s.writeReg v reg)

/-- One access or reset, whole and in one step (R59, R60, R270). -/
def performAccess (a : HostAccess) (s : State) : Host.Outcome State Fault Refusal :=
  match a with
  | .read offset bytes => memRead offset bytes s
  | .write offset bytes v => memWrite offset bytes v s
  | .reset => .next s.platformReset

/-- One step: the next access the host or the platform has issued, or nothing when there is none, since the block
never acts on its own (R13; the idle step is a DESIGN CHOICE, assumption log 3). -/
def stepOnce (s : State) : Host.Outcome State Fault Refusal :=
  match s.takeAccess with
  | none => .next s
  | some (a, s') => performAccess a s'

/-- The CMD write that carries a table word of `nbits` bits, every bit above `nbits` being 0 (R80, R84). -/
def cmdWrite (nbits w : Nat) : HostAccess := .write 0x000 4 (BitVec.ofNat 32 (w % 2 ^ nbits))

end Sys2Proof.Machine
end

