-- ==== Sys2Proof/Machine/Step.lean ====
section
/-! DEFINITION. One step of the machine, and where a command word is placed for the next step (spec 20_memory.md R59,
R60). -/

namespace Sys2Proof.Machine

/-- One step: the next host access, performed whole (R59, R60). -/
def step (s : State) : Host.Outcome State Fault Refusal := stepOnce s

/-- The state whose next access is the CMD write of this table word; every other access stays pending behind
it (DESIGN CHOICE, assumption log 4). -/
def State.withFetchWord (s : State) (nbits w : Nat) : State :=
  { s with inputs := cmdWrite nbits w :: s.inputs }

end Sys2Proof.Machine
end

