-- ==== Sys2Proof/Machine/HostAsm.lean ====
section
/-! DEFINITION. The host assembly: its statements and pseudo-instructions, and the host accesses each stands for
(spec 30_encoding.md R90, R91). -/

namespace Sys2Proof.Machine

/-- A statement of the host assembly. `li64` and the like are the pseudo-instructions of R91. -/
inductive HostStmt where
  | wr (offset : Nat) (imm : Word32)
  | rd (offset : Nat)
  | command (i : Instr)
  | cmd (imm : Word32)
  | li32 (imm : Word32)
  | li64 (imm : Word64)
  | rd64
  | ldrep (x : Slot) (tail : Word32) (head : List Word32)
  | rdrep (x : Slot)
  | rdst
  deriving DecidableEq, Repr

/-- `wr OFF, IMM` (R90). -/
def wrAccess (offset : Nat) (v : Word32) : HostAccess := .write offset 4 v

/-- `rd OFF` (R90). -/
def rdAccess (offset : Nat) : HostAccess := .read offset 4

/-- The offset of HEAD[x][i] (R51, R91). -/
def headOffset (x : Slot) (i : Nat) : Nat := slotBase x + 0x10 + 4 * i

/-- The writes of these head words from index `i` on, in order (R91). -/
def headWrites (x : Slot) : Nat → List Word32 → List HostAccess
  | _, [] => []
  | i, h :: hs => wrAccess (headOffset x i) h :: headWrites x (i + 1) hs

/-- The accesses a statement stands for, issued from state `s`; only RDREP looks at the state, for the HLEN it reads
(R90, R91; DEDUCED, assumption log 9). -/
def HostStmt.expand (s : State) : HostStmt → List HostAccess
  | .wr offset imm => [wrAccess offset imm]
  | .rd offset => [rdAccess offset]
  | .command i => [wrAccess 0x000 (encode i)]
  | .cmd imm => [wrAccess 0x000 imm]
  | .li32 imm => [wrAccess 0x008 imm]
  | .li64 imm => [wrAccess 0x008 (dataLo imm), wrAccess 0x00C (dataHi imm)]
  | .rd64 => [rdAccess 0x008, rdAccess 0x00C]
  | .ldrep x tail head =>
    wrAccess (slotBase x + 0x00) tail :: (headWrites x 0 head ++
      [wrAccess (slotBase x + 0x04) (BitVec.ofNat 32 head.length)])
  | .rdrep x =>
    rdAccess (slotBase x + 0x00) :: rdAccess (slotBase x + 0x04) ::
      (List.range (s.slot x).hlen).map fun i => rdAccess (headOffset x i)
  | .rdst => [rdAccess 0x004]

/-- The state in which the host has a statement's accesses still to issue, before all others. -/
def State.issue (s : State) (st : HostStmt) : State := { s with inputs := st.expand s ++ s.inputs }

end Sys2Proof.Machine
end

