-- ==== Sys2Proof/Machine/HostText.lean ====
section
/-! DEFINITION. Reading the text of the host assembly: one line of characters to one statement
(spec 30_encoding.md R90, R91). What the spec leaves open of the text is a DESIGN CHOICE (assumption log 10). -/

namespace Sys2Proof.Machine

/-- The pieces of a line: a run of characters, or one of the three marks R90 and R91 use. -/
inductive TextToken where
  | word (cs : List Char)
  | comma
  | openList
  | closeList
  deriving DecidableEq, Repr

/-- The word whose characters these are, last first, put before the pieces that follow; no word when there are none. -/
def closeWord (acc : List Char) (rest : List TextToken) : List TextToken :=
  if acc = [] then rest else .word acc.reverse :: rest

/-- The pieces of a line. `;` starts a comment, which ends the line (R90); spaces and tabs part words. -/
def lineTokens : List Char → List Char → List TextToken
  | acc, [] => closeWord acc []
  | acc, c :: cs =>
    if c = ';' then closeWord acc []
    else if c = ' ' ∨ c = '\t' then closeWord acc (lineTokens [] cs)
    else if c = ',' then closeWord acc (.comma :: lineTokens [] cs)
    else if c = '[' then closeWord acc (.openList :: lineTokens [] cs)
    else if c = ']' then closeWord acc (.closeList :: lineTokens [] cs)
    else lineTokens (c :: acc) cs

/-- The value of a digit: 0 to 9, and A to F or a to f. -/
def digitValue (c : Char) : Option Nat :=
  let n := c.toNat
  if 48 ≤ n ∧ n ≤ 57 then some (n - 48)
  else if 65 ≤ n ∧ n ≤ 70 then some (n - 55)
  else if 97 ≤ n ∧ n ≤ 102 then some (n - 87)
  else none

/-- The number these digits write in this radix after `acc`; `none` on a character that is no digit of the radix. -/
def digitsValue (radix : Nat) : Nat → List Char → Option Nat
  | acc, [] => some acc
  | acc, c :: cs =>
    match digitValue c with
    | some d => if d < radix then digitsValue radix (radix * acc + d) cs else none
    | none => none

/-- A number, hexadecimal with `0x` or decimal, with at least one digit (R90). -/
def readNumber : List Char → Option Nat
  | '0' :: 'x' :: c :: cs => digitsValue 16 0 (c :: cs)
  | c :: cs => digitsValue 10 0 (c :: cs)
  | [] => none

/-- `IMM`, a value of `n` bits; a number that needs more bits is none (R90). -/
def readValue (n : Nat) (cs : List Char) : Option (BitVec n) :=
  match readNumber cs with
  | some v => if v < 2 ^ n then some (BitVec.ofNat n v) else none
  | none => none

/-- A slot operand, `A` or `B` (R90). -/
def readSlotName : List Char → Option Slot
  | ['A'] => some .a
  | ['B'] => some .b
  | _ => none

/-- The rest of a list of head words after `[`: values parted by commas up to `]`, which ends the statement (R91). -/
def readHeadWords : List TextToken → Option (List Word32)
  | [.word cs, .closeList] => (readValue 32 cs).map fun v => [v]
  | .word cs :: .comma :: rest =>
    match readValue 32 cs, readHeadWords rest with
    | some v, some vs => some (v :: vs)
    | _, _ => none
  | _ => none

/-- `[H0, ..., Hn-1]`, and `[]` for the empty head (R91, R10). -/
def readHead : List TextToken → Option (List Word32)
  | [.openList, .closeList] => some []
  | .openList :: rest => readHeadWords rest
  | _ => none

/-- The command with this mnemonic and slot operand (R90); EQ takes no slot. -/
def slotCommand (mnemonic : List Char) (x : Slot) : Option Instr :=
  if mnemonic = ['E', 'N', 'C', '_', 'I', '3', '2'] then some (.encI32 x)
  else if mnemonic = ['E', 'N', 'C', '_', 'U', '3', '2'] then some (.encU32 x)
  else if mnemonic = ['E', 'N', 'C', '_', 'I', '6', '4'] then some (.encI64 x)
  else if mnemonic = ['E', 'N', 'C', '_', 'U', '6', '4'] then some (.encU64 x)
  else if mnemonic = ['D', 'E', 'C', '_', 'I', '3', '2'] then some (.decI32 x)
  else if mnemonic = ['D', 'E', 'C', '_', 'U', '3', '2'] then some (.decU32 x)
  else if mnemonic = ['D', 'E', 'C', '_', 'I', '6', '4'] then some (.decI64 x)
  else if mnemonic = ['D', 'E', 'C', '_', 'U', '6', '4'] then some (.decU64 x)
  else if mnemonic = ['S', 'G', 'N'] then some (.sgn x)
  else none

/-- A statement with one operand word: `rd`, a command on a slot, `CMD`, `LI32`, `LI64`, `RDREP` (R90, R91). -/
def readOneOperand (name operand : List Char) : Option HostStmt :=
  if name = ['r', 'd'] then (readNumber operand).map .rd
  else if name = ['C', 'M', 'D'] then (readValue 32 operand).map .cmd
  else if name = ['L', 'I', '3', '2'] then (readValue 32 operand).map .li32
  else if name = ['L', 'I', '6', '4'] then (readValue 64 operand).map .li64
  else
    match readSlotName operand with
    | some x => if name = ['R', 'D', 'R', 'E', 'P'] then some (.rdrep x) else (slotCommand name x).map .command
    | none => none

/-- A statement without operands: `EQ`, `RD64`, `RDST` (R90, R91). -/
def readNoOperand (name : List Char) : Option HostStmt :=
  if name = ['E', 'Q'] then some (.command .eq)
  else if name = ['R', 'D', '6', '4'] then some .rd64
  else if name = ['R', 'D', 'S', 'T'] then some .rdst
  else none

/-- `wr OFF, IMM` (R90). -/
def readWrite (offset imm : List Char) : Option HostStmt :=
  match readNumber offset, readValue 32 imm with
  | some o, some v => some (.wr o v)
  | _, _ => none

/-- `LDREP X, T, [H0, ..., Hn-1]` (R91). -/
def readLdrep (slot tail : List Char) (head : List TextToken) : Option HostStmt :=
  match readSlotName slot, readValue 32 tail, readHead head with
  | some x, some t, some h => some (.ldrep x t h)
  | _, _, _ => none

/-- The statement these pieces write; `none` for pieces that write no statement (R90, R91). -/
def readTokens : List TextToken → Option HostStmt
  | [.word name] => readNoOperand name
  | [.word name, .word operand] => readOneOperand name operand
  | [.word name, .word offset, .comma, .word imm] => if name = ['w', 'r'] then readWrite offset imm else none
  | .word name :: .word slot :: .comma :: .word tail :: .comma :: head =>
    if name = ['L', 'D', 'R', 'E', 'P'] then readLdrep slot tail head else none
  | _ => none

/-- What one line of the host assembly is: nothing, a statement, or no line of the language. -/
inductive HostLine where
  | blank
  | statement (st : HostStmt)
  | malformed
  deriving DecidableEq, Repr

/-- One line of the host assembly (R90, R91). -/
def readLine (cs : List Char) : HostLine :=
  match lineTokens [] cs with
  | [] => .blank
  | tokens =>
    match readTokens tokens with
    | some st => .statement st
    | none => .malformed

end Sys2Proof.Machine
end

