-- ==== Sys2Proof/WellFormed.lean ====
section
/-! DEFINITION. What makes a command and a parameter choice well formed (spec 00_scope.md R7, 30_encoding.md R81).
What makes a host access well formed is in Sys2Proof/Machine/Ops.lean, beside the refusals it gives (R54). -/

namespace Sys2Proof

/-- Every term of `Instr` is well formed: the only operand is a slot, `Slot` holds exactly the two slots, and
EQ has no operand, so the word EQ with SLOT = 1 has no term (R81, R83). -/
def Instr.wellFormed : Instr → Bool
  | .encI32 _ => true
  | .encU32 _ => true
  | .encI64 _ => true
  | .encU64 _ => true
  | .decI32 _ => true
  | .decU32 _ => true
  | .decI64 _ => true
  | .decU64 _ => true
  | .sgn _ => true
  | .eq => true

/-- `2 <= HEAD_CAP <= 12`; either zero test is allowed (R7). -/
abbrev Params.WellFormed (p : Params) : Prop :=
  2 ≤ p.headCap ∧ p.headCap ≤ 12

end Sys2Proof
end

