-- ==== Sys2Proof/Safety.lean ====
section
/-! DEFINITION. What claims call a good state, a legal access and a safe run. -/

namespace Sys2Proof.Machine

/-- HLEN is in 0..HEAD_CAP and the slot has HEAD_CAP head registers (R20, R24). -/
abbrev SlotRegs.WellFormed (cap : Nat) (r : SlotRegs) : Prop :=
  r.hlen ≤ cap ∧ r.head.length = cap

/-- NEG is never 1 while OVF is 0 (R30), ILL and OVF are never 1 together (R242), and SGN is never 10 (R33). -/
abbrev Status.WellFormed (f : Status) : Prop :=
  (f.neg = true → f.ovf = true) ∧ (f.ill = true → f.ovf = false) ∧ f.sgn ≠ 0b10

/-- The invariant of the block: legal parameters, legal slots, a legal STATUS. -/
abbrev State.Inv (s : State) : Prop :=
  s.params.WellFormed ∧ s.slotA.WellFormed s.params.headCap ∧ s.slotB.WellFormed s.params.headCap ∧
    s.status.WellFormed

/-- An access the interface has: a reset, or a 32-bit access at a 4-byte-aligned offset in 0x000 to 0x0BF (R54). -/
abbrev HostAccess.Legal : HostAccess → Prop
  | .read offset bytes => bytes = 4 ∧ offset % 4 = 0 ∧ offset < 0x0C0
  | .write offset bytes _ => bytes = 4 ∧ offset % 4 = 0 ∧ offset < 0x0C0
  | .reset => True

/-- `n` steps from `s`, stopping at the first fault or refusal: the host's own run of the machine. -/
def State.run (s : State) (n : Nat) : Host.Outcome State Fault Refusal := Sys2Proof.core.run n s

/-- A run of `n` steps from `s` is safe: it meets no fault and no refusal. -/
def SafeRun (n : Nat) (s : State) : Prop :=
  ∃ t, s.run n = .next t

/-- Runs one statement of the host assembly: its accesses, one step each (R90, R91). -/
def State.runStmt (s : State) (st : HostStmt) : Host.Outcome State Fault Refusal :=
  (s.issue st).run (st.expand s).length

/-- Runs the statements of a program in order, to the first fault or refusal (R36, R59, R90). -/
def State.runProgram (s : State) : List HostStmt → Host.Outcome State Fault Refusal
  | [] => .next s
  | st :: rest =>
    match s.runStmt st with
    | .next t => t.runProgram rest
    | .fault r => .fault r
    | .refused r => .refused r

end Sys2Proof.Machine
end

