-- ==== Sys2Proof/Certificates/Slice0/Obligations.lean ====
section
/-! DEFINITION. The statements for the provers. Each docstring names the rule of spec/ it formalises. -/

open Sys2Proof
open Sys2Proof.Machine

/-! ### Command words and decoding (30_encoding.md) -/

/-- 30_encoding.md §2 (R82): words of the opcode map, written out, decode to the commands they stand for, and three
illegal words are rejected. -/
def Obligations.WrittenWordsDecodeAsMapped : Prop :=
  decodeWord 0x00000001#32 = .command (.encI32 .a) ∧ decodeWord 0x00000012#32 = .command (.encU32 .b) ∧
  decodeWord 0x00000003#32 = .command (.encI64 .a) ∧ decodeWord 0x00000014#32 = .command (.encU64 .b) ∧
  decodeWord 0x00000005#32 = .command (.decI32 .a) ∧ decodeWord 0x00000016#32 = .command (.decU32 .b) ∧
  decodeWord 0x00000007#32 = .command (.decI64 .a) ∧ decodeWord 0x00000018#32 = .command (.decU64 .b) ∧
  decodeWord 0x00000019#32 = .command (.sgn .b) ∧ decodeWord 0x0000000A#32 = .command .eq ∧
  decodeWord 0x0000001A#32 = .reject .eqSlotB ∧ decodeWord 0x0000000B#32 = .reject .reservedOpcode ∧
  decodeWord 0x00000021#32 = .reject .reservedBits

/-- 30_encoding.md §2 to §4 (R80, R82, R85): over all 2^32 words, the decoder answers a command exactly on the word
the encoder gives that command, so decoding undoes encoding and no word has two readings. -/
def Obligations.DecodeIsExactInverseOfEncode : Prop :=
  ∀ (w : Word32) (i : Instr), decodeWord w = .command i ↔ w = encode i

/-- R83: the illegal words are exactly the three kinds; an illegal word's only effect is the one of R243; the legal
words are exactly the 19 that R82 lists. -/
def Obligations.IllegalWordsAreThreeKindsAndOnlySetIll : Prop :=
  (∀ w : Word32, (∃ r, decodeWord w = .reject r) ↔
    (w.toNat / 2 ^ 5 ≠ 0 ∨ w.toNat % 2 ^ 4 = 0x0 ∨ 0xB ≤ w.toNat % 2 ^ 4 ∨ w = 0x0000001A#32)) ∧
  (∀ (w : Word32) (s : State), (∃ r, decodeWord w = .reject r) →
    executeCommand w s = .next { s with status := { s.status with ovf := false, neg := false, ill := true } }) ∧
  ∀ w : Word32, (∃ i, decodeWord w = .command i) ↔
    w ∈ [0x00000001#32, 0x00000011#32, 0x00000002#32, 0x00000012#32, 0x00000003#32, 0x00000013#32, 0x00000004#32,
      0x00000014#32, 0x00000005#32, 0x00000015#32, 0x00000006#32, 0x00000016#32, 0x00000007#32, 0x00000017#32,
      0x00000008#32, 0x00000018#32, 0x00000009#32, 0x00000019#32, 0x0000000A#32]

/-- 20_memory.md §2 (R53, the bytes of a bus word): byte `k` of a word holds bits `8k+7` to `8k`, and the four bytes
give the word back, so decoding the bytes of a CMD write is decoding its word. -/
def Obligations.ByteLanesCarryTheWord : Prop :=
  (∀ (w : Word32) (k j : Nat), k < 4 → j < 8 → (byteOfWord w k).getLsbD j = w.getLsbD (8 * k + j)) ∧
  ∀ w : Word32, decodeBytes [byteOfWord w 0, byteOfWord w 1, byteOfWord w 2, byteOfWord w 3] = decodeWord w

/-! ### Steps, accesses and runs (20_memory.md, 60_exceptions.md) -/

/-- 30_encoding.md §4 (R86): a host write to CMD performs ExecuteCommand, in one step; on a legal word that is the
command's meaning. The list of accesses still to come is the model's own (assumption log 2) and only loses its first. -/
def Obligations.CmdWriteStepRunsTheCommand : Prop :=
  ∀ (s : State) (w : Word32) (rest : List HostAccess), s.inputs = .write 0x000 4 w :: rest →
    step s = executeCommand w { s with inputs := rest } ∧
    ∀ i, decodeWord w = .command i → i.wellFormed = true → step s = exec i { s with inputs := rest }

/-- 20_memory.md §5 (R60, R63), in the model's own terms (assumption log 2 and 4): a table word placed for the next
step is the command the decoder reads from it, run on the state it was placed in. -/
def Obligations.PlacedWordRunsItsCommand : Prop :=
  ∀ (s : State) (nbits w : Nat) (i : Instr), decodeTableWord nbits w = some i →
    step (s.withFetchWord nbits w) = exec i s

/-- 00_scope.md §5 (R13): the block never acts on its own. With no access pending, a step changes nothing (the idle
step is the model's choice, assumption log 3). -/
def Obligations.IdleBlockKeepsItsState : Prop :=
  ∀ s : State, s.inputs = [] → step s = .next s

/-- 20_memory.md §3 (R54): a step refuses its access exactly when that access is not a 32-bit access at a 4-byte-aligned
offset in 0x000 to 0x0BF. The three names of the refusal and the order in which they are chosen are the model's
(assumption log 6). -/
def Obligations.OnlyAccessesOutsideTheInterfaceAreRefused : Prop :=
  ∀ (s : State) (a : HostAccess) (rest : List HostAccess), s.inputs = a :: rest →
    ((∃ r, step s = .refused r) ↔ ¬ a.Legal) ∧
    ∀ offset bytes v, a = .read offset bytes ∨ a = .write offset bytes v →
      (step s = .refused .accessWidth ↔ bytes ≠ 4) ∧
      (step s = .refused .accessMisaligned ↔ bytes = 4 ∧ offset % 4 ≠ 0) ∧
      (step s = .refused .accessOutsideWindow ↔ bytes = 4 ∧ offset % 4 = 0 ∧ 0x0C0 ≤ offset)

/-- 60_exceptions.md §1 (R240): every host access completes normally. However long the run, a block whose pending
accesses are all legal meets no fault and no refusal, whatever the command words are. -/
def Obligations.LegalAccessesAlwaysComplete : Prop :=
  ∀ (n : Nat) (s : State), (∀ a ∈ s.inputs, a.Legal) → SafeRun n s

/-- 20_memory.md §3 and §5 (R57, R59): accesses are performed one at a time in issue order; a read returns the register's
value as the earlier accesses left it; a write is performed, whole, as MemWrite; a reset (an entry of the list by the
model's choice, assumption log 5) resets the block; nothing but a read is reported. The access list and the report list
are the model's own (assumption log 2). -/
def Obligations.AccessesPerformInIssueOrder : Prop :=
  (∀ (s : State) (offset bytes : Nat) (v : Word32) (rest : List HostAccess),
    s.inputs = .write offset bytes v :: rest → step s = memWrite offset bytes v { s with inputs := rest }) ∧
  ∀ (s t : State) (a : HostAccess) (rest : List HostAccess), s.inputs = a :: rest → step s = .next t →
    t.inputs = rest ∧
    (∀ offset bytes, a = .read offset bytes → t = { s with inputs := rest, trace := s.trace ++ [s.windowRead offset] }) ∧
    (a = .reset → t = { s.platformReset with inputs := rest }) ∧
    ((∀ offset bytes, a ≠ .read offset bytes) → t.trace = s.trace)

/-! ### The register window (20_memory.md §1, 10_state.md) -/

/-- 20_memory.md §1 (R51, R57): what a read of each offset of the window returns. -/
def Obligations.RegisterMapReads : Prop :=
  ∀ s : State, s.Inv →
    s.windowRead 0x000 = 0 ∧ s.windowRead 0x004 = s.status.toWord ∧
    (s.windowRead 0x00C ++ s.windowRead 0x008 : BitVec 64) = s.data ∧ s.windowRead 0x010 = capsWord s.params ∧
    s.windowRead 0x040 = s.slotA.tail ∧ (s.windowRead 0x044).toNat = s.slotA.hlen ∧
    s.windowRead 0x080 = s.slotB.tail ∧ (s.windowRead 0x084).toNat = s.slotB.hlen ∧
    (∀ i, i < s.params.headCap → s.slotA.head[i]? = some (s.windowRead (0x050 + 4 * i))) ∧
    (∀ i, i < s.params.headCap → s.slotB.head[i]? = some (s.windowRead (0x090 + 4 * i)))

/-- R52: a reserved offset inside the window reads as 0x00000000, a write to it is ignored, and neither has any other
effect. The reserved offsets are those of R51's table. -/
def Obligations.ReservedOffsetsReadZeroAndIgnoreWrites : Prop :=
  ∀ (s : State) (offset : Nat) (v : Word32), s.Inv → offset % 4 = 0 →
    ((0x014 ≤ offset ∧ offset < 0x040) ∨
      (∃ x, offset = slotBase x + 0x08 ∨ offset = slotBase x + 0x0C) ∨
      ∃ x i, s.params.headCap ≤ i ∧ i < 12 ∧ offset = slotBase x + 0x10 + 4 * i) →
    memRead offset 4 s = .next { s with trace := s.trace ++ [0] } ∧ memWrite offset 4 v s = .next s

/-- 20_memory.md §3 (R56, R57, with R22 and R23): a write of DATA_LO, DATA_HI, TAIL or an existing HEAD register
completes, reads back as written, and leaves every other offset of the window, the parameters and the report list as
they were. -/
def Obligations.RegisterWriteReadsBackAndTouchesNothingElse : Prop :=
  ∀ (s : State) (offset : Nat) (v : Word32), s.Inv →
    (offset = 0x008 ∨ offset = 0x00C ∨ (∃ x, offset = slotBase x) ∨
      ∃ x i, i < s.params.headCap ∧ offset = slotBase x + 0x10 + 4 * i) →
    ∃ t, memWrite offset 4 v s = .next t ∧ t.windowRead offset = v ∧ t.params = s.params ∧ t.trace = s.trace ∧
      t.inputs = s.inputs ∧ ∀ o, o ≠ offset → t.windowRead o = s.windowRead o

/-- R24: HLEN is read zero-extended; a write up to HEAD_CAP sets it and changes nothing else; a larger write is
ignored, STATUS included; HLEN = 0 is the empty head; reset leaves 0 and the representation (0x00000000, []) of the
integer 0. -/
def Obligations.HlenIsReadWrittenAndBounded : Prop :=
  (∀ (s : State) (x : Slot) (v : Word32), s.Inv →
    (s.slot x).hlen ≤ s.params.headCap ∧
    s.windowRead (slotBase x + 0x04) = BitVec.ofNat 32 (s.slot x).hlen ∧
    (s.windowRead (slotBase x + 0x04)).toNat = (s.slot x).hlen ∧
    (v.toNat ≤ s.params.headCap → ∃ t, memWrite (slotBase x + 0x04) 4 v s = .next t ∧ (t.slot x).hlen = v.toNat ∧
      t = s.setSlot x { s.slot x with hlen := v.toNat }) ∧
    (s.params.headCap < v.toNat → memWrite (slotBase x + 0x04) 4 v s = .next s) ∧
    ((s.slot x).hlen = 0 → (s.readSlot x).head = [])) ∧
  ∀ (s : State) (x : Slot), (s.platformReset.slot x).hlen = 0 ∧ s.platformReset.readSlot x = ⟨0x00000000, []⟩ ∧
    val ⟨0x00000000, []⟩ = some 0

/-- 10_state.md §4 (R28): where each field of STATUS stands in the word the host reads, the reserved bits read 0, and
a host write is ignored. -/
def Obligations.StatusWordLayout : Prop :=
  ∀ (s : State) (v : Word32),
    (s.windowRead 0x004).getLsbD 0 = s.status.ovf ∧ (s.windowRead 0x004).getLsbD 1 = s.status.neg ∧
    (s.windowRead 0x004).getLsbD 2 = s.status.ill ∧ (s.windowRead 0x004).getLsbD 3 = s.status.eq ∧
    (s.windowRead 0x004).extractLsb' 4 2 = s.status.sgn ∧ (s.windowRead 0x004).toNat < 2 ^ 6 ∧
    memWrite 0x004 4 v s = .next s

/-- R27: CAPS[3:0] is HEAD_CAP, CAPS[4] is 0 for FULL and 1 for CODED, CAPS[31:5] is 0; host writes are ignored; no
step, a reset among them, changes it. -/
def Obligations.CapsHoldsTheParametersForLife : Prop :=
  ∀ s : State, s.Inv →
    (s.windowRead 0x010).toNat % 2 ^ 4 = s.params.headCap ∧
    ((s.windowRead 0x010).getLsbD 4 = true ↔ s.params.signZeroTest = .coded) ∧
    (s.windowRead 0x010).toNat / 2 ^ 5 = 0 ∧
    (∀ v, memWrite 0x010 4 v s = .next s) ∧
    s.platformReset.windowRead 0x010 = s.windowRead 0x010 ∧
    ∀ t, step s = .next t → t.params = s.params ∧ t.windowRead 0x010 = s.windowRead 0x010

/-! ### Representations (40_layout_pack_unpack.md, 41_encoders.md, 42_sign.md, 43_decoders.md, 44_equality.md) -/

/-- 40_layout_pack_unpack.md §1 (R112, R113, R114): the limb weights of heads of length 0, 1 and 2, no magnitude
elsewhere, and the numeric value. -/
def Obligations.MagnitudeAndValueByLimbWeights : Prop :=
  (∀ t, mag ⟨t, []⟩ = some (t.toNat % 2 ^ 31)) ∧
  (∀ t h0, mag ⟨t, [h0]⟩ = some (t.toNat % 2 ^ 31 + 2 ^ 31 * h0.toNat)) ∧
  (∀ t h0 h1, h0.toNat ≤ 1 →
    mag ⟨t, [h0, h1]⟩ = some (t.toNat % 2 ^ 31 + 2 ^ 31 * h1.toNat + 2 ^ 63 * h0.toNat)) ∧
  (∀ t h0 h1, 1 < h0.toNat → mag ⟨t, [h0, h1]⟩ = none) ∧
  (∀ r : Rep, 2 < r.head.length → mag r = none) ∧
  (∀ r m, mag r = some m → m = 0 → val r = some 0) ∧
  (∀ r m, mag r = some m → 0 < m → r.tail.getLsbD 31 = true → val r = some (-(m : Int))) ∧
  (∀ r m, mag r = some m → 0 < m → r.tail.getLsbD 31 = false → val r = some (m : Int)) ∧
  ∀ r, mag r = none → val r = none

/-- R119: unpacking what PACK made gives the magnitude back, whatever the sign bit. -/
def Obligations.UnpackUndoesPack : Prop :=
  ∀ (sb : Bool) (m : Nat), m ≤ 2 ^ 64 - 1 → unpack (pack sb m) = some m

/-- R116: the shape of PACK's head depends only on the magnitude; no leading zero head word, never more than 2 head
words, and the last head word has bit 31 set exactly when bit 62 of the magnitude is 1. -/
def Obligations.PackShapeDependsOnMagnitude : Prop :=
  ∀ (sb : Bool) (m : Nat), m < 2 ^ 64 →
    (m < 2 ^ 31 → (pack sb m).head = []) ∧
    (2 ^ 31 ≤ m → m < 2 ^ 63 → ∃ h0, (pack sb m).head = [h0] ∧ h0.toNat = m / 2 ^ 31 ∧ 1 ≤ h0.toNat ∧
      (h0.getLsbD 31 = m.testBit 62)) ∧
    (2 ^ 63 ≤ m → ∃ h1, (pack sb m).head = [0x00000001, h1] ∧ h1.toNat = m / 2 ^ 31 % 2 ^ 32 ∧
      (h1.getLsbD 31 = m.testBit 62)) ∧
    (pack sb m).head.length ≤ 2 ∧ (pack sb m).head.head? ≠ some 0

/-- R149: each encoder equals PACK on its whole domain, no encoder output has more than 2 head words, and the outputs
are exactly the canonical representations. -/
def Obligations.EncodersEqualPack : Prop :=
  (∀ v : Int, -2 ^ 31 ≤ v → v ≤ 2 ^ 31 - 1 → encI32 v = pack (decide (v < 0)) v.natAbs) ∧
  (∀ v : Nat, v ≤ 2 ^ 32 - 1 → encU32 v = pack false v) ∧
  (∀ v : Int, -2 ^ 63 ≤ v → v ≤ 2 ^ 63 - 1 → encI64 v = pack (decide (v < 0)) v.natAbs) ∧
  (∀ v : Nat, v ≤ 2 ^ 64 - 1 → encU64 v = pack false v) ∧
  (∀ r : Rep, Canonical r → r.head.length ≤ 2) ∧
  ∀ r : Rep, Canonical r ↔
    ((∃ v : Int, -2 ^ 31 ≤ v ∧ v ≤ 2 ^ 31 - 1 ∧ r = encI32 v) ∨ (∃ v : Nat, v ≤ 2 ^ 32 - 1 ∧ r = encU32 v) ∨
      (∃ v : Int, -2 ^ 63 ≤ v ∧ v ≤ 2 ^ 63 - 1 ∧ r = encI64 v) ∨ ∃ v : Nat, v ≤ 2 ^ 64 - 1 ∧ r = encU64 v)

/-- R150: two encoders given the same integer produce the same representation. -/
def Obligations.SameIntegerSameRepresentation : Prop :=
  (∀ v : Int, -2 ^ 31 ≤ v → v ≤ 2 ^ 31 - 1 → encI32 v = encI64 v) ∧
  (∀ v : Nat, v ≤ 2 ^ 31 - 1 → encI32 v = encU32 v) ∧
  (∀ v : Nat, v ≤ 2 ^ 32 - 1 → encU32 v = encU64 v ∧ encU32 v = encI64 v) ∧
  (∀ v : Nat, v ≤ 2 ^ 63 - 1 → encI64 v = encU64 v) ∧
  encU32 (2 ^ 31) = ⟨0x00000000, [0x00000001]⟩ ∧ encI64 (2 ^ 31) = ⟨0x00000000, [0x00000001]⟩ ∧
  encU64 (2 ^ 31) = ⟨0x00000000, [0x00000001]⟩ ∧ encI32 (-2 ^ 31) = encI64 (-2 ^ 31)

/-- R117: UNPACK's sums for heads of length 0, 1 and 2; it gives the limb-weight magnitude, ignores tail bit 31,
answers TOO_WIDE exactly where MAG is undefined, and never exceeds 2^64-1. -/
def Obligations.UnpackIsTheMagnitude : Prop :=
  (∀ t, unpack ⟨t, []⟩ = some (t.toNat % 2 ^ 31)) ∧
  (∀ t h0, unpack ⟨t, [h0]⟩ = some (t.toNat % 2 ^ 31 + 2 ^ 31 * h0.toNat)) ∧
  (∀ t h0 h1, h0.toNat ≤ 1 →
    unpack ⟨t, [h0, h1]⟩ = some (t.toNat % 2 ^ 31 + 2 ^ 63 * h0.toNat + 2 ^ 31 * h1.toNat)) ∧
  (∀ r : Rep, unpack r = mag r) ∧
  (∀ r : Rep, unpack r = none ↔ 2 < r.head.length ∨ (r.head.length = 2 ∧ 1 < (r.head.headD 0).toNat)) ∧
  (∀ (r : Rep) (m : Nat), unpack r = some m → m ≤ 2 ^ 64 - 1) ∧
  ∀ (t q : Word32) (h : List Word32), t.toNat % 2 ^ 31 = q.toNat % 2 ^ 31 → unpack ⟨t, h⟩ = unpack ⟨q, h⟩

/-- R120: every integer in [-2^63, 2^64-1] has exactly one canonical representation, every canonical representation
is that of its value, no canonical representation is a negative zero or has a non-empty head of zero words. -/
def Obligations.EveryIntegerHasOneCanonicalRepresentation : Prop :=
  (∀ n : Int, -2 ^ 63 ≤ n → n ≤ 2 ^ 64 - 1 →
    Canonical (canon n) ∧ val (canon n) = some n ∧ ∀ c, Canonical c → val c = some n → c = canon n) ∧
  (∀ n : Nat, n ≤ 2 ^ 64 - 1 → canon n = pack false n) ∧
  (∀ n : Nat, 1 ≤ n → n ≤ 2 ^ 63 → canon (-(n : Int)) = pack true n) ∧
  (∀ c : Rep, Canonical c → ∃ n : Int, -2 ^ 63 ≤ n ∧ n ≤ 2 ^ 64 - 1 ∧ val c = some n ∧ canon n = c) ∧
  ¬ Canonical ⟨0x80000000, []⟩ ∧
  ∀ c : Rep, Canonical c → c.head ≠ [] → ∃ h ∈ c.head, h ≠ 0

/-- R173: on canonical representations the two zero tests agree, a non-empty head has magnitude at least 2^31 and a
non-zero word, and the sign is that of the value; anywhere, the tests differ exactly where the tail's low 31 bits are
0 and the head is non-empty and all zero. -/
def Obligations.ZeroTestsAgreeOnCanonical : Prop :=
  (∀ c : Rep, Canonical c → isZero .full c = isZero .coded c ∧ signOf .full c = signOf .coded c) ∧
  (∀ (c : Rep) (m : Nat), Canonical c → mag c = some m → c.head ≠ [] → 2 ^ 31 ≤ m ∧ ∃ h ∈ c.head, h ≠ 0) ∧
  (∀ (z : SignZeroTest) (c : Rep) (n : Int), Canonical c → val c = some n → signInt (signOf z c) = n.sign) ∧
  ∀ r : Rep, (isZero .full r ≠ isZero .coded r ↔ r.tail.toNat % 2 ^ 31 = 0 ∧ r.head ≠ [] ∧ ∀ h ∈ r.head, h = 0) ∧
    (signOf .full r ≠ signOf .coded r ↔ r.tail.toNat % 2 ^ 31 = 0 ∧ r.head ≠ [] ∧ ∀ h ∈ r.head, h = 0)

/-- R174: the sign test of an encoded native value is the sign of that value, for all four widths and both settings. -/
def Obligations.SignOfEncodedIsSignOfValue : Prop :=
  ∀ z : SignZeroTest,
    (∀ v : Int, -2 ^ 31 ≤ v → v ≤ 2 ^ 31 - 1 → signInt (signOf z (encI32 v)) = v.sign) ∧
    (∀ v : Nat, v ≤ 2 ^ 32 - 1 → signInt (signOf z (encU32 v)) = (v : Int).sign) ∧
    (∀ v : Int, -2 ^ 63 ≤ v → v ≤ 2 ^ 63 - 1 → signInt (signOf z (encI64 v)) = v.sign) ∧
    ∀ v : Nat, v ≤ 2 ^ 64 - 1 → signInt (signOf z (encU64 v)) = (v : Int).sign

/-- R189: on a canonical representation each decoder is exactly a range check of its value, with cause NEG exactly for
a negative value and an unsigned target. -/
def Obligations.DecodersRangeCheckCanonicalValues : Prop :=
  ∀ (z : SignZeroTest) (c : Rep) (n : Int), Canonical c → val c = some n →
    decI32 z c = (if -2 ^ 31 ≤ n ∧ n ≤ 2 ^ 31 - 1 then .ok n else .ovf .mag) ∧
    decU32 z c = (if 0 ≤ n ∧ n ≤ 2 ^ 32 - 1 then .ok n else if n < 0 then .ovf .neg else .ovf .mag) ∧
    decI64 z c = (if -2 ^ 63 ≤ n ∧ n ≤ 2 ^ 63 - 1 then .ok n else .ovf .mag) ∧
    decU64 z c = (if 0 ≤ n ∧ n ≤ 2 ^ 64 - 1 then .ok n else if n < 0 then .ovf .neg else .ovf .mag)

/-- R191: each width's decoder undoes its encoder on every value, and the three overflow instances. -/
def Obligations.RoundTripsAndBoundaries : Prop :=
  ∀ z : SignZeroTest,
    (∀ v : Int, -2 ^ 31 ≤ v → v ≤ 2 ^ 31 - 1 → decI32 z (encI32 v) = .ok v) ∧
    (∀ v : Nat, v ≤ 2 ^ 32 - 1 → decU32 z (encU32 v) = .ok v) ∧
    (∀ v : Int, -2 ^ 63 ≤ v → v ≤ 2 ^ 63 - 1 → decI64 z (encI64 v) = .ok v) ∧
    (∀ v : Nat, v ≤ 2 ^ 64 - 1 → decU64 z (encU64 v) = .ok v) ∧
    decI32 z (encI64 (-2 ^ 63)) = .ovf .mag ∧
    decU32 z (encI32 (-1)) = .ovf .neg ∧ decU32 z (encI64 (-1)) = .ovf .neg ∧
    decU64 z (encI32 (-1)) = .ovf .neg ∧ decU64 z (encI64 (-1)) = .ovf .neg

/-- R222, with the structural rule of R220: two representations are equal exactly when their tails and their heads
are; equality is an equivalence on all representations; on canonical ones it is equality of values; elsewhere equal
values can compare unequal. -/
def Obligations.EqualityIsStructuralAndCanonicalByValue : Prop :=
  (∀ r q, eqRep r q = true ↔ r.tail = q.tail ∧ r.head = q.head) ∧
  (∀ r, eqRep r r = true) ∧ (∀ r q, eqRep r q = true → eqRep q r = true) ∧
  (∀ r q p, eqRep r q = true → eqRep q p = true → eqRep r p = true) ∧
  (∀ r q, Canonical r → Canonical q → (eqRep r q = true ↔ val r = val q)) ∧
  ∃ r q n, val r = some n ∧ val q = some n ∧ eqRep r q = false

/-! ### The encoder commands (41_encoders.md) -/

/-- R142: ENC_I32. Its words; for every state, the slot then holds PACK of the signed value of DATA[31:0], HLEN is that
head's length and the head words beyond are 0, OVF, NEG and ILL are 0, and nothing else changes; the corner cases. -/
def Obligations.EncI32StoresPackedSigned32 : Prop :=
  encode (.encI32 .a) = 0x00000001#32 ∧ encode (.encI32 .b) = 0x00000011#32 ∧
  (∀ (s : State) (x : Slot), ∃ t, exec (.encI32 x) s = .next t ∧
    t.readSlot x = pack (decide ((s.data.extractLsb' 0 32).toInt < 0)) (s.data.extractLsb' 0 32).toInt.natAbs ∧
    (t.slot x).hlen = (t.readSlot x).head.length ∧
    (∀ i, (t.slot x).hlen ≤ i → t.headWord x i = 0) ∧ t.slot x.other = s.slot x.other ∧
    { t with slotA := s.slotA, slotB := s.slotB } =
      { s with status := { s.status with ovf := false, neg := false, ill := false } }) ∧
  (∀ v : Int, -2 ^ 31 ≤ v → v ≤ 2 ^ 31 - 1 → encI32 v = pack (decide (v < 0)) v.natAbs ∧
    ((encI32 v).head ≠ [] ↔ v = -2 ^ 31)) ∧
  encI32 0 = ⟨0x00000000, []⟩ ∧ encI32 (-2 ^ 31) = ⟨0x80000000, [0x00000001]⟩ ∧
  encI32 (2 ^ 31 - 1) = ⟨0x7FFFFFFF, []⟩ ∧ encI32 (-(2 ^ 31 - 1)) = ⟨0xFFFFFFFF, []⟩ ∧
  encI32 (-1) = ⟨0x80000001, []⟩

/-- R144: ENC_U32. Its words; for every state, the slot then holds PACK of the unsigned value of DATA[31:0]; the frame
and flags as for ENC_I32; the corner cases; the sign bit is never set. -/
def Obligations.EncU32StoresPackedUnsigned32 : Prop :=
  encode (.encU32 .a) = 0x00000002#32 ∧ encode (.encU32 .b) = 0x00000012#32 ∧
  (∀ (s : State) (x : Slot), ∃ t, exec (.encU32 x) s = .next t ∧
    t.readSlot x = pack false (s.data.toNat % 2 ^ 32) ∧
    (t.slot x).hlen = (t.readSlot x).head.length ∧
    (∀ i, (t.slot x).hlen ≤ i → t.headWord x i = 0) ∧ t.slot x.other = s.slot x.other ∧
    { t with slotA := s.slotA, slotB := s.slotB } =
      { s with status := { s.status with ovf := false, neg := false, ill := false } }) ∧
  (∀ v : Nat, v ≤ 2 ^ 32 - 1 → encU32 v = pack false v ∧ (encU32 v).tail.getLsbD 31 = false) ∧
  encU32 0 = ⟨0x00000000, []⟩ ∧ encU32 (2 ^ 31 - 1) = ⟨0x7FFFFFFF, []⟩ ∧
  encU32 (2 ^ 31) = ⟨0x00000000, [0x00000001]⟩ ∧ encU32 (2 ^ 32 - 1) = ⟨0x7FFFFFFF, [0x00000001]⟩

/-- R146: ENC_I64. Its words; for every state, the slot then holds PACK of the signed value of DATA; the frame and
flags as for ENC_I32; -2^63 is the only input with two head words; the corner cases. -/
def Obligations.EncI64StoresPackedSigned64 : Prop :=
  encode (.encI64 .a) = 0x00000003#32 ∧ encode (.encI64 .b) = 0x00000013#32 ∧
  (∀ (s : State) (x : Slot), ∃ t, exec (.encI64 x) s = .next t ∧
    t.readSlot x = pack (decide (s.data.toInt < 0)) s.data.toInt.natAbs ∧
    (t.slot x).hlen = (t.readSlot x).head.length ∧
    (∀ i, (t.slot x).hlen ≤ i → t.headWord x i = 0) ∧ t.slot x.other = s.slot x.other ∧
    { t with slotA := s.slotA, slotB := s.slotB } =
      { s with status := { s.status with ovf := false, neg := false, ill := false } }) ∧
  (∀ v : Int, -2 ^ 63 ≤ v → v ≤ 2 ^ 63 - 1 → encI64 v = pack (decide (v < 0)) v.natAbs ∧
    ((encI64 v).head.length = 2 ↔ v = -2 ^ 63) ∧
    (v ≠ -2 ^ 63 → 2 ^ 31 ≤ v.natAbs → (encI64 v).head.length = 1)) ∧
  encI64 0 = ⟨0x00000000, []⟩ ∧ encI64 (-1) = ⟨0x80000001, []⟩ ∧
  encI64 (-2 ^ 31) = ⟨0x80000000, [0x00000001]⟩ ∧ encI64 (-2 ^ 31) = encI32 (-2 ^ 31) ∧
  encI64 (2 ^ 62) = ⟨0x00000000, [0x80000000]⟩ ∧ encI64 (2 ^ 63 - 1) = ⟨0x7FFFFFFF, [0xFFFFFFFF]⟩ ∧
  encI64 (-(2 ^ 63 - 1)) = ⟨0xFFFFFFFF, [0xFFFFFFFF]⟩ ∧
  encI64 (-2 ^ 63) = ⟨0x80000000, [0x00000001, 0x00000000]⟩

/-- R148: ENC_U64. Its words; for every state, the slot then holds PACK of the unsigned value of DATA; the frame and
flags as for ENC_I32; the corner cases; the sign bit is never set. -/
def Obligations.EncU64StoresPackedUnsigned64 : Prop :=
  encode (.encU64 .a) = 0x00000004#32 ∧ encode (.encU64 .b) = 0x00000014#32 ∧
  (∀ (s : State) (x : Slot), ∃ t, exec (.encU64 x) s = .next t ∧
    t.readSlot x = pack false s.data.toNat ∧
    (t.slot x).hlen = (t.readSlot x).head.length ∧
    (∀ i, (t.slot x).hlen ≤ i → t.headWord x i = 0) ∧ t.slot x.other = s.slot x.other ∧
    { t with slotA := s.slotA, slotB := s.slotB } =
      { s with status := { s.status with ovf := false, neg := false, ill := false } }) ∧
  (∀ v : Nat, v ≤ 2 ^ 64 - 1 → encU64 v = pack false v ∧ (encU64 v).tail.getLsbD 31 = false) ∧
  encU64 0 = ⟨0x00000000, []⟩ ∧ encU64 (2 ^ 31) = ⟨0x00000000, [0x00000001]⟩ ∧
  encU64 (2 ^ 63 - 1) = ⟨0x7FFFFFFF, [0xFFFFFFFF]⟩ ∧
  encU64 (2 ^ 63) = ⟨0x00000000, [0x00000001, 0x00000000]⟩ ∧
  encI64 (-2 ^ 63) = ⟨0x80000000, [0x00000001, 0x00000000]⟩ ∧
  encU64 (2 ^ 64 - 1) = ⟨0x7FFFFFFF, [0x00000001, 0xFFFFFFFF]⟩

/-- 41_encoders.md §1 (R140, with R26): the frame of the four encoder commands, read through the window: every offset
but STATUS and the target slot's registers reads as before, and STATUS.EQ and STATUS.SGN are unchanged. -/
def Obligations.EncodersWriteOnlyTheirSlotAndOutcome : Prop :=
  ∀ (i : Instr) (x : Slot) (s t : State), i = .encI32 x ∨ i = .encU32 x ∨ i = .encI64 x ∨ i = .encU64 x →
    exec i s = .next t →
    (∀ o, o ≠ 0x004 → (o < slotBase x ∨ slotBase x + 0x40 ≤ o) → t.windowRead o = s.windowRead o) ∧
    t.status.eq = s.status.eq ∧ t.status.sgn = s.status.sgn ∧ t.params = s.params ∧ t.inputs = s.inputs ∧
    t.trace = s.trace

/-! ### The decoder commands (43_decoders.md) -/

/-- R182: DEC_I32. Its words; for every slot content and either zero test: an empty head gives plus or minus base by
the tail's sign bit, (0x80000000, [1]) gives -2^31, both written to DATA sign-extended with OVF, NEG and ILL cleared;
every other content raises Overflow(MAG) with DATA unchanged; the corner cases. Nothing else changes. -/
def Obligations.DecI32DecodesOrOverflows : Prop :=
  encode (.decI32 .a) = 0x00000005#32 ∧ encode (.decI32 .b) = 0x00000015#32 ∧
  (∀ (s : State) (x : Slot),
    ((s.readSlot x).head = [] → exec (.decI32 x) s = .next { s with
      data := BitVec.ofInt 64 (if sbit (s.readSlot x) then -(base (s.readSlot x) : Int) else base (s.readSlot x))
      status := { s.status with ovf := false, neg := false, ill := false } }) ∧
    (s.readSlot x = ⟨0x80000000, [0x00000001]⟩ → exec (.decI32 x) s = .next { s with
      data := 0xFFFFFFFF80000000
      status := { s.status with ovf := false, neg := false, ill := false } }) ∧
    ((s.readSlot x).head ≠ [] → s.readSlot x ≠ ⟨0x80000000, [0x00000001]⟩ → exec (.decI32 x) s = .next { s with
      status := { s.status with ovf := true, neg := false, ill := false } })) ∧
  ∀ z : SignZeroTest,
    decI32 z ⟨0x00000000, []⟩ = .ok 0 ∧ decI32 z ⟨0x80000000, []⟩ = .ok 0 ∧
    decI32 z ⟨0x7FFFFFFF, []⟩ = .ok (2 ^ 31 - 1) ∧ decI32 z ⟨0xFFFFFFFF, []⟩ = .ok (-(2 ^ 31 - 1)) ∧
    decI32 z ⟨0x80000001, []⟩ = .ok (-1) ∧ decI32 z ⟨0x80000000, [0x00000001]⟩ = .ok (-2 ^ 31) ∧
    decI32 z ⟨0x00000000, [0x00000001]⟩ = .ovf .mag ∧ decI32 z ⟨0x80000001, [0x00000001]⟩ = .ovf .mag ∧
    decI32 z ⟨0x00000005, [0x00000000]⟩ = .ovf .mag ∧ ∀ r : Rep, 2 ≤ r.head.length → decI32 z r = .ovf .mag

/-- R184: DEC_U32. Its words; for every slot content: Overflow(NEG) when the sign is -1, otherwise Overflow(MAG) when
the head is longer than 1 or its one word is above 1, otherwise DATA is the zero-extended magnitude with OVF, NEG and
ILL cleared; the corner cases. Nothing else changes. -/
def Obligations.DecU32DecodesOrOverflows : Prop :=
  encode (.decU32 .a) = 0x00000006#32 ∧ encode (.decU32 .b) = 0x00000016#32 ∧
  (∀ (s : State) (x : Slot),
    (signOf s.params.signZeroTest (s.readSlot x) = .neg → exec (.decU32 x) s = .next { s with
      status := { s.status with ovf := true, neg := true, ill := false } }) ∧
    (signOf s.params.signZeroTest (s.readSlot x) ≠ .neg →
      (1 < (s.readSlot x).head.length ∨ ∃ h0, (s.readSlot x).head = [h0] ∧ 1 < h0.toNat) →
      exec (.decU32 x) s = .next { s with status := { s.status with ovf := true, neg := false, ill := false } }) ∧
    (signOf s.params.signZeroTest (s.readSlot x) ≠ .neg → (s.readSlot x).head = [] →
      exec (.decU32 x) s = .next { s with
        data := BitVec.ofNat 64 (base (s.readSlot x))
        status := { s.status with ovf := false, neg := false, ill := false } }) ∧
    ∀ h0, signOf s.params.signZeroTest (s.readSlot x) ≠ .neg → (s.readSlot x).head = [h0] → h0.toNat ≤ 1 →
      exec (.decU32 x) s = .next { s with
        data := BitVec.ofNat 64 (base (s.readSlot x) + 2 ^ 31 * h0.toNat)
        status := { s.status with ovf := false, neg := false, ill := false } }) ∧
  (∀ z : SignZeroTest,
    decU32 z ⟨0x00000000, []⟩ = .ok 0 ∧ decU32 z ⟨0x80000000, []⟩ = .ok 0 ∧
    decU32 z ⟨0x7FFFFFFF, [0x00000001]⟩ = .ok (2 ^ 32 - 1) ∧ decU32 z ⟨0x00000000, [0x00000001]⟩ = .ok (2 ^ 31) ∧
    decU32 z ⟨0x80000001, []⟩ = .ovf .neg ∧ decU32 z ⟨0x00000000, [0x00000002]⟩ = .ovf .mag ∧
    decU32 z ⟨0x00000000, [0x00000001, 0x00000000]⟩ = .ovf .mag ∧ decU32 z ⟨0x00000003, [0x00000000]⟩ = .ok 3) ∧
  decU32 .full ⟨0x80000000, [0x00000000]⟩ = .ok 0 ∧ decU32 .coded ⟨0x80000000, [0x00000000]⟩ = .ovf .neg

/-- R186: DEC_I64. Its words; for every slot content and either zero test: an empty or one-word head gives plus or
minus the magnitude by the tail's sign bit, (0x80000000, [1, 0]) gives -2^63, written to DATA with OVF, NEG and ILL
cleared; every other content raises Overflow(MAG) with DATA unchanged; the corner cases. The value for an empty head
is the spec's decision D13. Nothing else changes. -/
def Obligations.DecI64DecodesOrOverflows : Prop :=
  encode (.decI64 .a) = 0x00000007#32 ∧ encode (.decI64 .b) = 0x00000017#32 ∧
  (∀ (s : State) (x : Slot),
    (∀ m, (s.readSlot x).head.length ≤ 1 → mag (s.readSlot x) = some m → exec (.decI64 x) s = .next { s with
      data := BitVec.ofInt 64 (if sbit (s.readSlot x) then -(m : Int) else m)
      status := { s.status with ovf := false, neg := false, ill := false } }) ∧
    (s.readSlot x = ⟨0x80000000, [0x00000001, 0x00000000]⟩ → exec (.decI64 x) s = .next { s with
      data := 0x8000000000000000
      status := { s.status with ovf := false, neg := false, ill := false } }) ∧
    (2 ≤ (s.readSlot x).head.length → s.readSlot x ≠ ⟨0x80000000, [0x00000001, 0x00000000]⟩ →
      exec (.decI64 x) s = .next { s with status := { s.status with ovf := true, neg := false, ill := false } })) ∧
  ∀ z : SignZeroTest,
    decI64 z ⟨0x80000001, []⟩ = .ok (-1) ∧ decI64 z ⟨0x7FFFFFFF, [0xFFFFFFFF]⟩ = .ok (2 ^ 63 - 1) ∧
    decI64 z ⟨0xFFFFFFFF, [0xFFFFFFFF]⟩ = .ok (-(2 ^ 63 - 1)) ∧
    decI64 z ⟨0x80000000, [0x00000001]⟩ = .ok (-2 ^ 31) ∧
    decI64 z ⟨0x80000000, [0x00000001, 0x00000000]⟩ = .ok (-2 ^ 63) ∧
    decI64 z ⟨0x00000000, [0x00000001, 0x00000000]⟩ = .ovf .mag ∧
    decI64 z ⟨0x00000003, [0x00000000, 0x00000005]⟩ = .ovf .mag ∧
    decI64 z ⟨0x80000000, [0x00000000]⟩ = .ok 0 ∧ ∀ r : Rep, r.head.length = 3 → decI64 z r = .ovf .mag

/-- R188: DEC_U64. Its words; for every slot content: Overflow(NEG) when the sign is -1, otherwise Overflow(MAG) when
the head is longer than 2 or a two-word head starts with a word above 1, otherwise DATA is the magnitude with OVF, NEG
and ILL cleared; the corner cases. Nothing else changes. -/
def Obligations.DecU64DecodesOrOverflows : Prop :=
  encode (.decU64 .a) = 0x00000008#32 ∧ encode (.decU64 .b) = 0x00000018#32 ∧
  (∀ (s : State) (x : Slot),
    (signOf s.params.signZeroTest (s.readSlot x) = .neg → exec (.decU64 x) s = .next { s with
      status := { s.status with ovf := true, neg := true, ill := false } }) ∧
    (signOf s.params.signZeroTest (s.readSlot x) ≠ .neg →
      (2 < (s.readSlot x).head.length ∨ ∃ h0 h1, (s.readSlot x).head = [h0, h1] ∧ 1 < h0.toNat) →
      exec (.decU64 x) s = .next { s with status := { s.status with ovf := true, neg := false, ill := false } }) ∧
    ∀ m, signOf s.params.signZeroTest (s.readSlot x) ≠ .neg → mag (s.readSlot x) = some m →
      exec (.decU64 x) s = .next { s with
        data := BitVec.ofNat 64 m
        status := { s.status with ovf := false, neg := false, ill := false } }) ∧
  (∀ z : SignZeroTest,
    decU64 z ⟨0x00000000, []⟩ = .ok 0 ∧ decU64 z ⟨0x80000000, []⟩ = .ok 0 ∧
    decU64 z ⟨0x7FFFFFFF, [0x00000001, 0xFFFFFFFF]⟩ = .ok (2 ^ 64 - 1) ∧
    decU64 z ⟨0x00000000, [0x00000001, 0x00000000]⟩ = .ok (2 ^ 63) ∧
    decU64 z ⟨0x00000000, [0x00000002, 0x00000000]⟩ = .ovf .mag ∧ decU64 z ⟨0x80000001, []⟩ = .ovf .neg ∧
    decU64 z ⟨0x80000000, [0x00000001, 0x00000000]⟩ = .ovf .neg ∧
    decU64 z ⟨0x00000003, [0x00000000, 0x00000005]⟩ = .ok 10737418243) ∧
  decU64 .full ⟨0x80000000, [0x00000000, 0x00000000, 0x00000000]⟩ = .ovf .mag ∧
  decU64 .coded ⟨0x80000000, [0x00000000, 0x00000000, 0x00000000]⟩ = .ovf .neg

/-- 43_decoders.md §1 and 60_exceptions.md §1 (R180, R241, R247): the frame of the four decoder commands, read through
the window: every offset but STATUS, DATA_LO and DATA_HI reads as before, STATUS.EQ and STATUS.SGN are unchanged, and
when OVF is set DATA is unchanged too, so no partial or wrapped value reaches it. -/
def Obligations.DecodersWriteOnlyDataAndOutcome : Prop :=
  ∀ (i : Instr) (x : Slot) (s t : State), i = .decI32 x ∨ i = .decU32 x ∨ i = .decI64 x ∨ i = .decU64 x →
    exec i s = .next t →
    (∀ o, o ≠ 0x004 → o ≠ 0x008 → o ≠ 0x00C → t.windowRead o = s.windowRead o) ∧
    (t.status.ovf = true → ∀ o, o ≠ 0x004 → t.windowRead o = s.windowRead o) ∧
    t.status.eq = s.status.eq ∧ t.status.sgn = s.status.sgn ∧ t.params = s.params ∧ t.inputs = s.inputs ∧
    t.trace = s.trace

/-! ### SGN and EQ (42_sign.md, 44_equality.md) -/

/-- R172: SGN. Its words; for every slot content STATUS.SGN is 00 where the zero test of SIGN_ZERO_TEST holds, else 11
where tail bit 31 is 1, else 01; OVF, NEG and ILL are 0 and nothing else changes; the corner cases. -/
def Obligations.SgnReportsTheSign : Prop :=
  encode (.sgn .a) = 0x00000009#32 ∧ encode (.sgn .b) = 0x00000019#32 ∧
  (∀ (s : State) (x : Slot) (zero : Bool),
    (s.params.signZeroTest = .full →
      (zero = true ↔ (s.readSlot x).tail.toNat % 2 ^ 31 = 0 ∧ ∀ h ∈ (s.readSlot x).head, h = 0)) →
    (s.params.signZeroTest = .coded →
      (zero = true ↔ (s.readSlot x).tail.toNat % 2 ^ 31 = 0 ∧ (s.readSlot x).head = [])) →
    exec (.sgn x) s = .next { s with
      status := { s.status with
        ovf := false, neg := false, ill := false
        sgn := if zero then 0b00#2 else if (s.readSlot x).tail.getLsbD 31 then 0b11#2 else 0b01#2 } }) ∧
  (∀ z, signOf z ⟨0x80000000, []⟩ = .zero) ∧
  signOf .full ⟨0x80000000, [0x00000000]⟩ = .zero ∧ signOf .coded ⟨0x80000000, [0x00000000]⟩ = .neg ∧
  signOf .full ⟨0x00000000, [0x00000000, 0x00000000, 0x00000000]⟩ = .zero ∧
  signOf .coded ⟨0x00000000, [0x00000000, 0x00000000, 0x00000000]⟩ = .pos ∧
  (∀ z, signOf z ⟨0x80000000, [0x00000001]⟩ = .neg) ∧ (∀ z, signOf z ⟨0x00000000, [0x80000000]⟩ = .pos) ∧
  ∀ z, signOf z ⟨0x80000001, []⟩ = .neg

/-- R221: EQ. Its one word, 0x0000001A being illegal; for every state STATUS.EQ is 1 exactly when the two slots hold
the same representation, OVF, NEG and ILL are 0 and nothing else changes; the corner cases. -/
def Obligations.EqComparesTheSlots : Prop :=
  encode .eq = 0x0000000A#32 ∧ (∀ i, decodeWord 0x0000001A#32 ≠ .command i) ∧
  (∀ s : State, exec .eq s = .next { s with
    status := { s.status with
      ovf := false, neg := false, ill := false
      eq := decide ((s.readSlot .a).tail = (s.readSlot .b).tail ∧ (s.readSlot .a).head = (s.readSlot .b).head) } }) ∧
  (∀ (s : State) (x : Slot) (i : Nat) (v : Word32), (s.slot x).hlen ≤ i →
    (s.setSlot x { s.slot x with head := (s.slot x).head.set i v }).readSlot x = s.readSlot x) ∧
  eqRep ⟨0x00000000, []⟩ ⟨0x80000000, []⟩ = false ∧ eqRep ⟨0x00000005, []⟩ ⟨0x00000005, [0x00000000]⟩ = false ∧
  eqRep ⟨0x00000000, [0x80000000]⟩ ⟨0x00000000, [0x00000000]⟩ = false ∧
  eqRep (encU32 0xFFFFFFFF) (encI64 4294967295) = true ∧
  ∀ s t : State, exec .eq s.platformReset = .next t → t.status.eq = true

/-- 42_sign.md §2, 44_equality.md §2, 60_exceptions.md §1 (R172, R221, R243): the frame of SGN, EQ and an illegal word,
read through the window: every offset but STATUS reads as before; SGN keeps STATUS.EQ, EQ keeps STATUS.SGN, an illegal
word keeps both. -/
def Obligations.QueriesAndIllegalWordsWriteOnlyStatus : Prop :=
  ∀ (w : Word32) (s t : State), executeCommand w s = .next t →
    ((∃ x, decodeWord w = .command (.sgn x)) ∨ decodeWord w = .command .eq ∨ ∃ r, decodeWord w = .reject r) →
    (∀ o, o ≠ 0x004 → t.windowRead o = s.windowRead o) ∧
    (decodeWord w ≠ .command .eq → t.status.eq = s.status.eq) ∧
    ((∀ x, decodeWord w ≠ .command (.sgn x)) → t.status.sgn = s.status.sgn) ∧
    t.params = s.params ∧ t.inputs = s.inputs ∧ t.trace = s.trace

/-! ### Outcomes, whole-machine rules and reset (60_exceptions.md, 70_reset_and_hazards.md) -/

/-- 60_exceptions.md §1 and §2 (R242, R244, R245): after any CMD write, from any state, STATUS[2:0] is one of the four
codes; ILL is set exactly by an illegal word, OVF only by a decoder, NEG exactly by an unsigned decoder of a slot whose
sign is -1. -/
def Obligations.OnlyFourOutcomeCodes : Prop :=
  ∀ (w : Word32) (s : State), ∃ t, executeCommand w s = .next t ∧
    (t.windowRead 0x004).toNat % 2 ^ 3 ∈ [0b000, 0b001, 0b011, 0b100] ∧
    (t.status.ill = true ↔ ∃ r, decodeWord w = .reject r) ∧
    (t.status.ovf = true → ∃ x, decodeWord w = .command (.decI32 x) ∨ decodeWord w = .command (.decU32 x) ∨
      decodeWord w = .command (.decI64 x) ∨ decodeWord w = .command (.decU64 x)) ∧
    (t.status.neg = true ↔ ∃ x, (decodeWord w = .command (.decU32 x) ∨ decodeWord w = .command (.decU64 x)) ∧
      signOf s.params.signZeroTest (s.readSlot x) = .neg)

/-- 20_memory.md §3 (R56): running the same command twice in a row leaves the same state as running it once. -/
def Obligations.CommandsAreIdempotent : Prop :=
  ∀ (i : Instr) (s t : State), exec i s = .next t → exec i t = .next t

/-- 10_state.md §2 (R25): no command reads a head word at an index at or beyond HLEN. Two states that agree on the
parameters, DATA, STATUS and the two representations give results that agree on them, whatever the unused head words
hold. -/
def Obligations.UnusedHeadWordsAreNeverRead : Prop :=
  ∀ (i : Instr) (s s' t t' : State), s.params = s'.params → s.data = s'.data → s.status = s'.status →
    (∀ x, s.readSlot x = s'.readSlot x) → exec i s = .next t → exec i s' = .next t' →
    t.data = t'.data ∧ t.status = t'.status ∧ ∀ x, t.readSlot x = t'.readSlot x

/-- 70_reset_and_hazards.md §3 (R273, with R191): a decoder issued right after the encoder of the same width on the same
slot gives DATA the native value back: the 32-bit value sign- or zero-extended, the 64-bit value itself, with no
overflow. -/
def Obligations.DecoderAfterEncoderGivesDataBack : Prop :=
  ∀ (s : State) (x : Slot),
    (∀ t, exec (.encI32 x) s = .next t → ∃ u, exec (.decI32 x) t = .next u ∧
      u.data = (s.data.extractLsb' 0 32).signExtend 64 ∧ u.status.ovf = false) ∧
    (∀ t, exec (.encU32 x) s = .next t → ∃ u, exec (.decU32 x) t = .next u ∧
      u.data = (s.data.extractLsb' 0 32).setWidth 64 ∧ u.status.ovf = false) ∧
    (∀ t, exec (.encI64 x) s = .next t → ∃ u, exec (.decI64 x) t = .next u ∧
      u.data = s.data ∧ u.status.ovf = false) ∧
    ∀ t, exec (.encU64 x) s = .next t → ∃ u, exec (.decU64 x) t = .next u ∧
      u.data = s.data ∧ u.status.ovf = false

/-- 70_reset_and_hazards.md §1 (R270): the platform's reset, from any state and between any two accesses, sets DATA,
both slots with every head word, and STATUS to 0 and leaves CAPS; both slots then hold the canonical representation
of 0. That a reset is an entry of the access list is the model's choice (assumption log 5). -/
def Obligations.ResetZeroesEveryRegister : Prop :=
  ∀ (s : State) (rest : List HostAccess), s.inputs = .reset :: rest →
    ∃ t, step s = .next t ∧ t.data = 0 ∧ (∀ x, (t.slot x).tail = 0 ∧ (t.slot x).hlen = 0) ∧
      (∀ x i, t.headWord x i = 0) ∧ (∀ x, (t.slot x).head.length = s.params.headCap) ∧ t.status.toWord = 0 ∧
      t.windowRead 0x010 = s.windowRead 0x010 ∧ (∀ o, o ≠ 0x010 → t.windowRead o = 0) ∧
      (∀ x, t.readSlot x = ⟨0x00000000, []⟩) ∧ canon 0 = ⟨0x00000000, []⟩ ∧ t.inputs = rest ∧ t.trace = s.trace

/-- 70_reset_and_hazards.md §1 (R270), with 00_scope.md R7: the state after reset meets the invariant for every
parameter choice the spec allows, and with the defaults CAPS reads 0x00000004. -/
def Obligations.ResetStateMeetsTheInvariant : Prop :=
  (∀ p : Params, p.WellFormed → (State.resetWith p).Inv) ∧ State.reset.Inv ∧
  State.reset.params = ⟨4, .full⟩ ∧ State.reset.windowRead 0x010 = 0x00000004#32

/-- 10_state.md (R20, R24, R30, R33), 60_exceptions.md (R242): every step keeps the invariant: legal parameters, HLEN
in 0..HEAD_CAP with HEAD_CAP head registers in each slot, NEG never without OVF, ILL never with OVF, SGN never 10. -/
def Obligations.EveryStepKeepsTheInvariant : Prop :=
  ∀ s t : State, s.Inv → step s = .next t → t.Inv

/-! ### The host assembly's pseudo-instructions (30_encoding.md §6) -/

/-- 30_encoding.md §6 (R91): the accesses of LDREP, run one by one, load the slot with the representation and change
nothing else that the window shows outside that slot. The list of accesses is the model's own (assumption log 2). -/
def Obligations.LdrepLoadsTheRepresentation : Prop :=
  ∀ (s : State) (x : Slot) (tail : Word32) (head : List Word32), s.Inv → head.length ≤ s.params.headCap →
    ∃ t, (s.issue (.ldrep x tail head)).run (head.length + 2) = .next t ∧
      t.readSlot x = ⟨tail, head⟩ ∧ t.slot x.other = s.slot x.other ∧ t.data = s.data ∧ t.status = s.status ∧
      t.params = s.params ∧ t.inputs = s.inputs ∧ t.trace = s.trace

/-- 30_encoding.md §6 (R91): the accesses of RDREP, run one by one, report the tail, HLEN and the head words of the
representation, in that order, and change nothing. The report list is the model's own (assumption log 2). -/
def Obligations.RdrepReportsTheRepresentation : Prop :=
  ∀ (s : State) (x : Slot), s.Inv →
    (s.issue (.rdrep x)).run ((s.slot x).hlen + 2) = .next { s with
      trace := s.trace ++ (s.slot x).tail :: BitVec.ofNat 32 (s.slot x).hlen :: (s.readSlot x).head }
end

