-- ==== Sys2Proof/Laws/State.lean ====
section
/-! SUPPORT. One lemma per field per update of the state and of STATUS, so that no proof unfolds a record update. -/

namespace Sys2Proof.Machine

/-! ### STATUS -/

@[simp] theorem Status.succeed_ovf (f : Status) : f.succeed.ovf = false := rfl
@[simp] theorem Status.succeed_neg (f : Status) : f.succeed.neg = false := rfl
@[simp] theorem Status.succeed_ill (f : Status) : f.succeed.ill = false := rfl
@[simp] theorem Status.succeed_eq (f : Status) : f.succeed.eq = f.eq := rfl
@[simp] theorem Status.succeed_sgn (f : Status) : f.succeed.sgn = f.sgn := rfl

@[simp] theorem Status.overflow_ovf (c : OverflowCause) (f : Status) : (f.overflow c).ovf = true := rfl
@[simp] theorem Status.overflow_neg (c : OverflowCause) (f : Status) :
    (f.overflow c).neg = decide (c = .neg) := rfl
@[simp] theorem Status.overflow_ill (c : OverflowCause) (f : Status) : (f.overflow c).ill = false := rfl
@[simp] theorem Status.overflow_eq (c : OverflowCause) (f : Status) : (f.overflow c).eq = f.eq := rfl
@[simp] theorem Status.overflow_sgn (c : OverflowCause) (f : Status) : (f.overflow c).sgn = f.sgn := rfl

@[simp] theorem Status.illegal_ovf (f : Status) : f.illegal.ovf = false := rfl
@[simp] theorem Status.illegal_neg (f : Status) : f.illegal.neg = false := rfl
@[simp] theorem Status.illegal_ill (f : Status) : f.illegal.ill = true := rfl
@[simp] theorem Status.illegal_eq (f : Status) : f.illegal.eq = f.eq := rfl
@[simp] theorem Status.illegal_sgn (f : Status) : f.illegal.sgn = f.sgn := rfl

@[simp] theorem Status.withSgn_ovf (c : BitVec 2) (f : Status) : (f.withSgn c).ovf = f.ovf := rfl
@[simp] theorem Status.withSgn_neg (c : BitVec 2) (f : Status) : (f.withSgn c).neg = f.neg := rfl
@[simp] theorem Status.withSgn_ill (c : BitVec 2) (f : Status) : (f.withSgn c).ill = f.ill := rfl
@[simp] theorem Status.withSgn_eq (c : BitVec 2) (f : Status) : (f.withSgn c).eq = f.eq := rfl
@[simp] theorem Status.withSgn_sgn (c : BitVec 2) (f : Status) : (f.withSgn c).sgn = c := rfl

@[simp] theorem Status.withEq_ovf (b : Bool) (f : Status) : (f.withEq b).ovf = f.ovf := rfl
@[simp] theorem Status.withEq_neg (b : Bool) (f : Status) : (f.withEq b).neg = f.neg := rfl
@[simp] theorem Status.withEq_ill (b : Bool) (f : Status) : (f.withEq b).ill = f.ill := rfl
@[simp] theorem Status.withEq_eq (b : Bool) (f : Status) : (f.withEq b).eq = b := rfl
@[simp] theorem Status.withEq_sgn (b : Bool) (f : Status) : (f.withEq b).sgn = f.sgn := rfl

/-! ### One slot -/

@[simp] theorem Slot.other_other (x : Slot) : x.other.other = x := by cases x <;> rfl
@[simp] theorem Slot.other_ne (x : Slot) : x.other ≠ x := by cases x <;> decide

@[simp] theorem slotOfRep_tail (cap : Nat) (r : Rep) : (slotOfRep cap r).tail = r.tail := rfl
@[simp] theorem slotOfRep_hlen (cap : Nat) (r : Rep) : (slotOfRep cap r).hlen = r.head.length := rfl
@[simp] theorem slotOfRep_head (cap : Nat) (r : Rep) :
    (slotOfRep cap r).head = r.head ++ List.replicate (cap - r.head.length) 0 := rfl

@[simp] theorem SlotRegs.reset_tail (cap : Nat) : (SlotRegs.reset cap).tail = 0 := rfl
@[simp] theorem SlotRegs.reset_hlen (cap : Nat) : (SlotRegs.reset cap).hlen = 0 := rfl
@[simp] theorem SlotRegs.reset_head (cap : Nat) : (SlotRegs.reset cap).head = List.replicate cap 0 := rfl

@[simp] theorem State.setSlot_params (s : State) (x : Slot) (r : SlotRegs) :
    (s.setSlot x r).params = s.params := by cases x <;> rfl
@[simp] theorem State.setSlot_data (s : State) (x : Slot) (r : SlotRegs) :
    (s.setSlot x r).data = s.data := by cases x <;> rfl
@[simp] theorem State.setSlot_status (s : State) (x : Slot) (r : SlotRegs) :
    (s.setSlot x r).status = s.status := by cases x <;> rfl
@[simp] theorem State.setSlot_inputs (s : State) (x : Slot) (r : SlotRegs) :
    (s.setSlot x r).inputs = s.inputs := by cases x <;> rfl
@[simp] theorem State.setSlot_trace (s : State) (x : Slot) (r : SlotRegs) :
    (s.setSlot x r).trace = s.trace := by cases x <;> rfl
@[simp] theorem State.setSlot_slot (s : State) (x : Slot) (r : SlotRegs) :
    (s.setSlot x r).slot x = r := by cases x <;> rfl
@[simp] theorem State.setSlot_slot_other (s : State) (x : Slot) (r : SlotRegs) :
    (s.setSlot x r).slot x.other = s.slot x.other := by cases x <;> rfl
@[simp] theorem State.setSlot_setSlot (s : State) (x : Slot) (r q : SlotRegs) :
    (s.setSlot x r).setSlot x q = s.setSlot x q := by cases x <;> rfl
@[simp] theorem State.setSlot_same (s : State) (x : Slot) : s.setSlot x (s.slot x) = s := by cases x <;> rfl

@[simp] theorem State.writeSlot_params (s : State) (x : Slot) (r : Rep) :
    (s.writeSlot x r).params = s.params := State.setSlot_params s x _
@[simp] theorem State.writeSlot_data (s : State) (x : Slot) (r : Rep) :
    (s.writeSlot x r).data = s.data := State.setSlot_data s x _
@[simp] theorem State.writeSlot_status (s : State) (x : Slot) (r : Rep) :
    (s.writeSlot x r).status = s.status := State.setSlot_status s x _
@[simp] theorem State.writeSlot_inputs (s : State) (x : Slot) (r : Rep) :
    (s.writeSlot x r).inputs = s.inputs := State.setSlot_inputs s x _
@[simp] theorem State.writeSlot_trace (s : State) (x : Slot) (r : Rep) :
    (s.writeSlot x r).trace = s.trace := State.setSlot_trace s x _
@[simp] theorem State.writeSlot_slot (s : State) (x : Slot) (r : Rep) :
    (s.writeSlot x r).slot x = slotOfRep s.params.headCap r := State.setSlot_slot s x _
@[simp] theorem State.writeSlot_slot_other (s : State) (x : Slot) (r : Rep) :
    (s.writeSlot x r).slot x.other = s.slot x.other := State.setSlot_slot_other s x _

/-! ### The ways a command ends -/

@[simp] theorem State.succeed_params (s : State) : s.succeed.params = s.params := rfl
@[simp] theorem State.succeed_data (s : State) : s.succeed.data = s.data := rfl
@[simp] theorem State.succeed_slot (s : State) (x : Slot) : s.succeed.slot x = s.slot x := by cases x <;> rfl
@[simp] theorem State.succeed_status (s : State) : s.succeed.status = s.status.succeed := rfl
@[simp] theorem State.succeed_inputs (s : State) : s.succeed.inputs = s.inputs := rfl
@[simp] theorem State.succeed_trace (s : State) : s.succeed.trace = s.trace := rfl

@[simp] theorem State.raiseOverflow_params (c : OverflowCause) (s : State) :
    (s.raiseOverflow c).params = s.params := rfl
@[simp] theorem State.raiseOverflow_data (c : OverflowCause) (s : State) :
    (s.raiseOverflow c).data = s.data := rfl
@[simp] theorem State.raiseOverflow_slot (c : OverflowCause) (s : State) (x : Slot) :
    (s.raiseOverflow c).slot x = s.slot x := by cases x <;> rfl
@[simp] theorem State.raiseOverflow_status (c : OverflowCause) (s : State) :
    (s.raiseOverflow c).status = s.status.overflow c := rfl
@[simp] theorem State.raiseOverflow_inputs (c : OverflowCause) (s : State) :
    (s.raiseOverflow c).inputs = s.inputs := rfl
@[simp] theorem State.raiseOverflow_trace (c : OverflowCause) (s : State) :
    (s.raiseOverflow c).trace = s.trace := rfl

@[simp] theorem State.raiseIllegal_params (s : State) : s.raiseIllegal.params = s.params := rfl
@[simp] theorem State.raiseIllegal_data (s : State) : s.raiseIllegal.data = s.data := rfl
@[simp] theorem State.raiseIllegal_slot (s : State) (x : Slot) : s.raiseIllegal.slot x = s.slot x := by
  cases x <;> rfl
@[simp] theorem State.raiseIllegal_status (s : State) : s.raiseIllegal.status = s.status.illegal := rfl
@[simp] theorem State.raiseIllegal_inputs (s : State) : s.raiseIllegal.inputs = s.inputs := rfl
@[simp] theorem State.raiseIllegal_trace (s : State) : s.raiseIllegal.trace = s.trace := rfl

/-! ### Updates of other fields, seen through the slots -/

@[simp] theorem State.slot_withData (s : State) (d : Word64) (x : Slot) :
    State.slot { s with data := d } x = s.slot x := by cases x <;> rfl
@[simp] theorem State.slot_withStatus (s : State) (f : Status) (x : Slot) :
    State.slot { s with status := f } x = s.slot x := by cases x <;> rfl
@[simp] theorem State.slot_withInputs (s : State) (l : List HostAccess) (x : Slot) :
    State.slot { s with inputs := l } x = s.slot x := by cases x <;> rfl
@[simp] theorem State.slot_withTrace (s : State) (l : List Word32) (x : Slot) :
    State.slot { s with trace := l } x = s.slot x := by cases x <;> rfl

/-! ### Reports, resets and pending accesses -/

@[simp] theorem State.report_params (v : Word32) (s : State) : (s.report v).params = s.params := rfl
@[simp] theorem State.report_data (v : Word32) (s : State) : (s.report v).data = s.data := rfl
@[simp] theorem State.report_slot (v : Word32) (s : State) (x : Slot) : (s.report v).slot x = s.slot x := by
  cases x <;> rfl
@[simp] theorem State.report_status (v : Word32) (s : State) : (s.report v).status = s.status := rfl
@[simp] theorem State.report_inputs (v : Word32) (s : State) : (s.report v).inputs = s.inputs := rfl
@[simp] theorem State.report_trace (v : Word32) (s : State) : (s.report v).trace = s.trace ++ [v] := rfl

@[simp] theorem State.resetWith_params (p : Params) : (State.resetWith p).params = p := rfl
@[simp] theorem State.resetWith_slot (p : Params) (x : Slot) :
    (State.resetWith p).slot x = SlotRegs.reset p.headCap := by cases x <;> rfl

@[simp] theorem State.platformReset_params (s : State) : s.platformReset.params = s.params := rfl
@[simp] theorem State.platformReset_data (s : State) : s.platformReset.data = 0 := rfl
@[simp] theorem State.platformReset_slot (s : State) (x : Slot) :
    s.platformReset.slot x = SlotRegs.reset s.params.headCap := by cases x <;> rfl
@[simp] theorem State.platformReset_status (s : State) : s.platformReset.status = Status.reset := rfl
@[simp] theorem State.platformReset_inputs (s : State) : s.platformReset.inputs = s.inputs := rfl
@[simp] theorem State.platformReset_trace (s : State) : s.platformReset.trace = s.trace := rfl

@[simp] theorem State.withFetchWord_inputs (s : State) (nbits w : Nat) :
    (s.withFetchWord nbits w).inputs = cmdWrite nbits w :: s.inputs := rfl
@[simp] theorem State.issue_inputs (s : State) (st : HostStmt) :
    (s.issue st).inputs = st.expand s ++ s.inputs := rfl
@[simp] theorem State.issue_params (s : State) (st : HostStmt) : (s.issue st).params = s.params := rfl
@[simp] theorem State.issue_data (s : State) (st : HostStmt) : (s.issue st).data = s.data := rfl
@[simp] theorem State.issue_slot (s : State) (st : HostStmt) (x : Slot) : (s.issue st).slot x = s.slot x := by
  cases x <;> rfl
@[simp] theorem State.issue_status (s : State) (st : HostStmt) : (s.issue st).status = s.status := rfl
@[simp] theorem State.issue_trace (s : State) (st : HostStmt) : (s.issue st).trace = s.trace := rfl

end Sys2Proof.Machine
end

