-- ==== Sys2Proof/Laws/Ops.lean ====
section
/-! SUPPORT. For each shared operation, one lemma that says everything it can do. -/

namespace Sys2Proof.Machine

/-! ### Slots -/

/-- Only HLEN, the tail and the head registers decide what a slot holds. -/
theorem readSlot_congr {s t : State} {x : Slot} (h : s.slot x = t.slot x) : s.readSlot x = t.readSlot x := by
  simp only [State.readSlot, h]

/-- A representation written to a slot is the one the slot holds (R25, R26). -/
@[simp] theorem readSlot_writeSlot (s : State) (x : Slot) (r : Rep) : (s.writeSlot x r).readSlot x = r := by
  simp [State.readSlot]

@[simp] theorem readSlot_succeed (s : State) (x : Slot) : s.succeed.readSlot x = s.readSlot x :=
  readSlot_congr (State.succeed_slot s x)

@[simp] theorem readSlot_raiseOverflow (c : OverflowCause) (s : State) (x : Slot) :
    (s.raiseOverflow c).readSlot x = s.readSlot x :=
  readSlot_congr (State.raiseOverflow_slot c s x)

@[simp] theorem readSlot_withData (s : State) (d : Word64) (x : Slot) :
    State.readSlot { s with data := d } x = s.readSlot x :=
  readSlot_congr (State.slot_withData s d x)

@[simp] theorem readSlot_withStatus (s : State) (f : Status) (x : Slot) :
    State.readSlot { s with status := f } x = s.readSlot x :=
  readSlot_congr (State.slot_withStatus s f x)

/-- WriteSlot clears the head words beyond the new length (R26). -/
theorem headWord_writeSlot (s : State) (x : Slot) (r : Rep) (i : Nat) :
    (s.writeSlot x r).headWord x i = r.head.getD i 0 := by
  simp only [State.headWord, State.writeSlot_slot, slotOfRep_head, List.getD_eq_getElem?_getD]
  by_cases h : i < r.head.length
  · rw [List.getElem?_append_left h]
  · rw [List.getElem?_append_right (by omega), List.getElem?_replicate, List.getElem?_eq_none (by omega)]
    split <;> rfl

/-- A representation that fits leaves a well-formed slot. -/
theorem slotOfRep_wellFormed {cap : Nat} {r : Rep} (h : r.head.length ≤ cap) :
    (slotOfRep cap r).WellFormed cap := by
  refine ⟨h, ?_⟩
  simp only [slotOfRep_head, List.length_append, List.length_replicate]
  omega

/-! ### The ways a command ends -/

/-- An encoder command always completes, with the slot written and the outcome bits clear (R140). -/
theorem finishEncode_eq (x : Slot) (r : Rep) (s : State) :
    finishEncode x r s = .next (s.writeSlot x r).succeed := rfl

/-- A decoder command always completes: with DATA written, or with the overflow raised (R180). -/
theorem finishDecode_cases {toData : Int → Word64} {res : DecResult} {s t : State}
    (h : finishDecode toData res s = .next t) :
    (∃ k, res = .ok k ∧ t = { s with data := toData k }.succeed) ∨
    (∃ c, res = .ovf c ∧ t = s.raiseOverflow c) := by
  cases res with
  | ok k => exact .inl ⟨k, rfl, (Host.Outcome.next.inj h).symm⟩
  | ovf c => exact .inr ⟨c, rfl, (Host.Outcome.next.inj h).symm⟩

/-! ### Accesses -/

/-- An access has no refusal exactly when the interface has it (R54). -/
theorem accessRefusal_eq_none_iff (offset bytes : Nat) :
    accessRefusal offset bytes = none ↔ bytes = 4 ∧ offset % 4 = 0 ∧ offset < 0x0C0 := by
  unfold accessRefusal
  split
  · simp_all
  · split
    · simp_all
    · split
      · simp_all
      · simp_all

/-- What an access outside the interface is refused for. -/
theorem accessRefusal_eq_some {offset bytes : Nat} {r : Refusal} (h : accessRefusal offset bytes = some r) :
    (r = .accessWidth ∧ bytes ≠ 4) ∨ (r = .accessMisaligned ∧ bytes = 4 ∧ offset % 4 ≠ 0) ∨
    (r = .accessOutsideWindow ∧ bytes = 4 ∧ offset % 4 = 0 ∧ 0x0C0 ≤ offset) := by
  unfold accessRefusal at h
  split at h
  · simp_all
  · split at h
    · simp_all
    · split at h
      · simp_all
      · simp at h

/-- A legal read completes: it reports the register's value and changes nothing else. -/
theorem memRead_legal (offset : Nat) (s : State) (h : accessRefusal offset 4 = none) :
    memRead offset 4 s = .next (s.report (s.windowRead offset)) := by
  simp only [memRead, h]

/-- A legal write runs a command at CMD and writes a register elsewhere. -/
theorem memWrite_legal (offset : Nat) (v : Word32) (s : State) (h : accessRefusal offset 4 = none) :
    memWrite offset 4 v s =
      if windowReg s.params.headCap offset = .cmd then executeCommand v s
      else .next (s.writeReg v (windowReg s.params.headCap offset)) := by
  simp only [memWrite, h]
  split <;> simp_all

/-- With an access pending, a step performs it and takes it off the list. -/
theorem step_of_inputs {s : State} {a : HostAccess} {rest : List HostAccess} (h : s.inputs = a :: rest) :
    step s = performAccess a { s with inputs := rest } := by
  simp only [step, stepOnce, State.takeAccess, h]

/-- A run of no steps stays where it is. -/
@[simp] theorem run_zero (s : State) : s.run 0 = .next s := rfl

/-- A step that completes carries the run on from the state it reached. -/
theorem run_succ_of_step {s t : State} (n : Nat) (h : step s = .next t) : s.run (n + 1) = t.run n := by
  have h' : Sys2Proof.core.step s = .next t := h
  simp only [State.run, Host.Core.run, h']
  rfl

/-- The window's register at CMD's offset is CMD. -/
@[simp] theorem windowReg_cmd (cap : Nat) : windowReg cap 0x000 = .cmd := rfl

/-- A CMD write performs ExecuteCommand (R86). -/
@[simp] theorem memWrite_cmd (w : Word32) (s : State) : memWrite 0x000 4 w s = executeCommand w s := rfl

end Sys2Proof.Machine
end

