-- ==== Sys2Proof/Laws/PerInstr.lean ====
section
/-! SUPPORT. Lemmas made per instruction, one per constructor of `Instr`. -/

namespace Sys2Proof.Laws.EncodeFields

/-- The fields of a command's word are the ones R80 and R82 give: RSV 0, SLOT the operand, OP the opcode. -/
def Statement (i : Instr) : Prop :=
  rsvField (encode i) = 0 ∧ slotField (encode i) = i.slotOperand ∧ opField (encode i) = i.opcode

theorem encI32 (x : Slot) : Statement (.encI32 x) := by cases x <;> (unfold Statement; decide)
theorem encU32 (x : Slot) : Statement (.encU32 x) := by cases x <;> (unfold Statement; decide)
theorem encI64 (x : Slot) : Statement (.encI64 x) := by cases x <;> (unfold Statement; decide)
theorem encU64 (x : Slot) : Statement (.encU64 x) := by cases x <;> (unfold Statement; decide)
theorem decI32 (x : Slot) : Statement (.decI32 x) := by cases x <;> (unfold Statement; decide)
theorem decU32 (x : Slot) : Statement (.decU32 x) := by cases x <;> (unfold Statement; decide)
theorem decI64 (x : Slot) : Statement (.decI64 x) := by cases x <;> (unfold Statement; decide)
theorem decU64 (x : Slot) : Statement (.decU64 x) := by cases x <;> (unfold Statement; decide)
theorem sgn (x : Slot) : Statement (.sgn x) := by cases x <;> (unfold Statement; decide)
theorem eq : Statement .eq := by unfold Statement; decide

end Sys2Proof.Laws.EncodeFields
end

