-- ==== Sys2Proof/Laws/Representation.lean ====
section
/-! SUPPORT. The small lemmas of the functions on representations and of the operand forms: fields of a tail, the
shape of PACK, the two zero tests, equality, native ranges. -/

namespace Sys2Proof.Machine

/-! ### The fields of a tail -/

theorem base_eq_mod (r : Rep) : base r = r.tail.toNat % 2 ^ 31 := by simp [base]

theorem base_lt (r : Rep) : base r < 2 ^ 31 := by rw [base_eq_mod]; omega

/-- Bit 31 of a word, as a bound on its number. -/
theorem getLsbD_31 (w : Word32) : w.getLsbD 31 = decide (2 ^ 31 ≤ w.toNat) := by
  rw [BitVec.getLsbD, Nat.testBit_eq_decide_div_mod_eq]
  have := w.isLt
  congr 1; simp; omega

theorem sbit_eq_decide (r : Rep) : sbit r = decide (2 ^ 31 ≤ r.tail.toNat) := getLsbD_31 r.tail

/-! ### PACK -/

/-- The tail PACK makes never overflows its 32 bits. -/
theorem packTail_toNat (sb : Bool) (m : Nat) :
    (BitVec.ofNat 32 (2 ^ 31 * signBit sb + m % 2 ^ 31)).toNat = 2 ^ 31 * signBit sb + m % 2 ^ 31 := by
  rw [BitVec.toNat_ofNat, Nat.mod_eq_of_lt]
  cases sb <;> simp [signBit] <;> omega

theorem pack_tail (sb : Bool) (m : Nat) :
    (pack sb m).tail = BitVec.ofNat 32 (2 ^ 31 * signBit sb + m % 2 ^ 31) := by
  unfold pack
  dsimp only
  split
  · rfl
  · split <;> rfl

@[simp] theorem base_pack (sb : Bool) (m : Nat) : base (pack sb m) = m % 2 ^ 31 := by
  rw [base_eq_mod, pack_tail, packTail_toNat]
  cases sb <;> simp [signBit]

@[simp] theorem sbit_pack (sb : Bool) (m : Nat) : sbit (pack sb m) = sb := by
  rw [sbit_eq_decide, pack_tail, packTail_toNat]
  cases sb <;> simp [signBit]
  omega

theorem pack_empty (sb : Bool) {m : Nat} (h : m < 2 ^ 31) :
    pack sb m = ⟨BitVec.ofNat 32 (2 ^ 31 * signBit sb + m % 2 ^ 31), []⟩ := by
  unfold pack
  rw [if_pos (by omega)]

theorem pack_oneWord (sb : Bool) {m : Nat} (h : 2 ^ 31 ≤ m) (h' : m < 2 ^ 63) :
    pack sb m = ⟨BitVec.ofNat 32 (2 ^ 31 * signBit sb + m % 2 ^ 31), [BitVec.ofNat 32 (m / 2 ^ 31)]⟩ := by
  unfold pack
  rw [if_neg (by omega), if_pos (by omega)]

theorem pack_twoWords (sb : Bool) {m : Nat} (h : 2 ^ 63 ≤ m) (h' : m < 2 ^ 64) :
    pack sb m =
      ⟨BitVec.ofNat 32 (2 ^ 31 * signBit sb + m % 2 ^ 31), [1#32, BitVec.ofNat 32 (m / 2 ^ 31 % 2 ^ 32)]⟩ := by
  unfold pack
  rw [if_neg (by omega), if_neg (by omega), show m / 2 ^ 31 / 2 ^ 32 = 1 by omega]

/-! ### The sign test -/

theorem isZero_full_iff (r : Rep) :
    isZero .full r = true ↔ r.tail.toNat % 2 ^ 31 = 0 ∧ ∀ h ∈ r.head, h = 0 := by
  simp [isZero, base_eq_mod]

theorem isZero_coded_iff (r : Rep) : isZero .coded r = true ↔ r.tail.toNat % 2 ^ 31 = 0 ∧ r.head = [] := by
  simp [isZero, base_eq_mod]

/-- Under either setting a representation that tests as zero has zero low magnitude bits. -/
theorem base_of_isZero {z : SignZeroTest} {r : Rep} (h : isZero z r = true) : base r = 0 := by
  rw [base_eq_mod]
  cases z
  · exact ((isZero_full_iff r).1 h).1
  · exact ((isZero_coded_iff r).1 h).1

/-- Everything SIGNOF can answer, and when (R171). -/
theorem signOf_cases (z : SignZeroTest) (r : Rep) :
    (isZero z r = true ∧ signOf z r = .zero) ∨ (isZero z r = false ∧ sbit r = true ∧ signOf z r = .neg) ∨
    (isZero z r = false ∧ sbit r = false ∧ signOf z r = .pos) := by
  cases hz : isZero z r <;> cases hs : sbit r <;> simp [signOf, hz, hs]

/-! ### Equality -/

theorem zipWith_beq_all_iff : ∀ l k : List Word32, l.length = k.length →
    ((List.zipWith (fun h g => h == g) l k).all id = true ↔ l = k)
  | [], [], _ => by simp
  | [], _ :: _, h => by simp at h
  | _ :: _, [], h => by simp at h
  | a :: l, b :: k, h => by
    have ih := zipWith_beq_all_iff l k (by simpa using h)
    rw [List.zipWith_cons_cons, List.all_cons, Bool.and_eq_true, ih, List.cons.injEq]
    simp

/-- Structural equality is equality of representations (R220). -/
theorem eqRep_eq_true_iff (r q : Rep) : eqRep r q = true ↔ r = q := by
  rcases r with ⟨t, h⟩
  rcases q with ⟨u, k⟩
  simp only [eqRep, Bool.and_eq_true, beq_iff_eq, Rep.mk.injEq]
  constructor
  · rintro ⟨h1, h2, h3⟩
    exact ⟨h1, (zipWith_beq_all_iff _ _ h2).1 h3⟩
  · rintro ⟨rfl, rfl⟩
    exact ⟨rfl, rfl, (zipWith_beq_all_iff _ _ rfl).2 rfl⟩

/-! ### DATA and native values -/

/-- A bit of two concatenated words. -/
theorem getLsbD_append32 (a b : Word32) (i : Nat) :
    BitVec.getLsbD (w := 64) (a ++ b) i = if i < 32 then b.getLsbD i else a.getLsbD (i - 32) :=
  BitVec.getLsbD_append

@[simp] theorem dataLo_append (a b : Word32) : dataLo (a ++ b) = b := by
  refine BitVec.eq_of_getLsbD_eq fun i hi => ?_
  rw [dataLo, BitVec.getLsbD_extractLsb', getLsbD_append32]
  simp [hi]

@[simp] theorem dataHi_append (a b : Word32) : dataHi (a ++ b) = a := by
  refine BitVec.eq_of_getLsbD_eq fun i hi => ?_
  rw [dataHi, BitVec.getLsbD_extractLsb', getLsbD_append32]
  simp [hi]

@[simp] theorem dataLo_withDataLo (v : Word32) (d : Word64) : dataLo (withDataLo v d) = v := dataLo_append _ _
@[simp] theorem dataHi_withDataLo (v : Word32) (d : Word64) : dataHi (withDataLo v d) = dataHi d :=
  dataHi_append _ _
@[simp] theorem dataLo_withDataHi (v : Word32) (d : Word64) : dataLo (withDataHi v d) = dataLo d :=
  dataLo_append _ _
@[simp] theorem dataHi_withDataHi (v : Word32) (d : Word64) : dataHi (withDataHi v d) = v := dataHi_append _ _

theorem nativeI32_range (d : Word64) : -2 ^ 31 ≤ nativeI32 d ∧ nativeI32 d ≤ 2 ^ 31 - 1 := by
  have h1 := BitVec.le_two_mul_toInt (x := dataLo d)
  have h2 := BitVec.two_mul_toInt_lt (x := dataLo d)
  unfold nativeI32
  omega

theorem nativeU32_range (d : Word64) : nativeU32 d ≤ 2 ^ 32 - 1 := by
  have := (dataLo d).isLt
  unfold nativeU32
  omega

theorem nativeI64_range (d : Word64) : -2 ^ 63 ≤ nativeI64 d ∧ nativeI64 d ≤ 2 ^ 63 - 1 := by
  have h1 := BitVec.le_two_mul_toInt (x := d)
  have h2 := BitVec.two_mul_toInt_lt (x := d)
  unfold nativeI64
  omega

theorem nativeU64_range (d : Word64) : nativeU64 d ≤ 2 ^ 64 - 1 := by
  have := d.isLt
  unfold nativeU64
  omega

/-- On its target's range DEC_I32's DATA form is the 64-bit form. -/
theorem sext64_of_range {k : Int} (h : -2 ^ 31 ≤ k) (h' : k < 2 ^ 31) : sext64 k = BitVec.ofInt 64 k := by
  apply BitVec.eq_of_toInt_eq
  rw [sext64, BitVec.toInt_signExtend_of_le (by omega), BitVec.toInt_ofInt, BitVec.toInt_ofInt,
    Int.bmod_eq_of_le (by omega) (by omega), Int.bmod_eq_of_le (by omega) (by omega)]

/-- On its target's range DEC_U32's DATA form is the 64-bit form. -/
theorem zext64_of_range {k : Nat} (h : k < 2 ^ 32) : zext64 k = BitVec.ofNat 64 k := by
  apply BitVec.eq_of_toNat_eq
  rw [zext64, BitVec.ofInt_natCast, BitVec.toNat_setWidth, BitVec.toNat_ofNat, BitVec.toNat_ofNat]
  omega

theorem bv64_natCast (k : Nat) : bv64 k = BitVec.ofNat 64 k := by rw [bv64, BitVec.ofInt_natCast]

end Sys2Proof.Machine
end

