-- ==== Sys2Proof/Laws/Window.lean ====
section
/-! SUPPORT. The register window: which register stands where, what a register write leaves alone, and what the
commands and accesses can do to the parameters and to the host's side of the state. -/

namespace Sys2Proof.Machine

/-! ### The map -/

/-- The offset a register stands at; a reserved place has none, and 0 stands for that. -/
def regOffset : WindowReg → Nat
  | .cmd => 0x000
  | .status => 0x004
  | .dataLo => 0x008
  | .dataHi => 0x00C
  | .caps => 0x010
  | .tail x => slotBase x
  | .hlen x => slotBase x + 0x04
  | .head x i => slotBase x + 0x10 + 4 * i
  | .reserved => 0

theorem regOffset_slotReg {cap : Nat} {x : Slot} {rel : Nat} (h : slotReg cap x rel ≠ .reserved) :
    regOffset (slotReg cap x rel) = slotBase x + rel := by
  unfold slotReg at *
  split
  · simp_all [regOffset]
  · split
    · simp_all [regOffset]
    · split
      · simp [regOffset]; omega
      · simp_all

/-- An offset that names a register is that register's offset. -/
theorem regOffset_windowReg {cap o : Nat} (h : windowReg cap o ≠ .reserved) : regOffset (windowReg cap o) = o := by
  unfold windowReg at *
  split
  · simp_all [regOffset]
  split
  · simp_all [regOffset]
  split
  · simp_all [regOffset]
  split
  · simp_all [regOffset]
  split
  · simp_all [regOffset]
  split
  · rw [regOffset_slotReg (by simp_all)]; simp [slotBase]; omega
  split
  · rw [regOffset_slotReg (by simp_all)]; simp [slotBase]; omega
  simp_all

/-- No register stands at two offsets. -/
theorem windowReg_injective {cap o p : Nat} (h : windowReg cap o = windowReg cap p)
    (hr : windowReg cap o ≠ .reserved) : o = p := by
  rw [← regOffset_windowReg (cap := cap) (o := o) hr, ← regOffset_windowReg (cap := cap) (o := p) (h ▸ hr), h]

theorem windowReg_slotBase_add (cap : Nat) (x : Slot) {rel : Nat} (h : rel < 0x40) :
    windowReg cap (slotBase x + rel) = slotReg cap x rel := by
  cases x <;> simp [windowReg, slotBase] <;> (repeat' split) <;> first | omega | rfl

theorem windowReg_head {cap i : Nat} (x : Slot) (h : i < cap) (h' : i < 12) :
    windowReg cap (slotBase x + 0x10 + 4 * i) = .head x i := by
  rw [Nat.add_assoc, windowReg_slotBase_add _ _ (by omega), slotReg, if_neg (by omega), if_neg (by omega),
    if_pos (by omega)]
  congr 1
  omega

/-! ### Register reads and writes -/

/-- What a register reads depends only on the parts of the state it shows. -/
theorem readReg_congr {s t : State} {q : WindowReg} (hp : s.params = t.params)
    (hd : q = .dataLo ∨ q = .dataHi → s.data = t.data) (hs : q = .status → s.status = t.status)
    (hx : ∀ x, (q = .tail x ∨ q = .hlen x ∨ ∃ i, q = .head x i) → s.slot x = t.slot x) :
    s.readReg q = t.readReg q := by
  cases q with
  | cmd => rfl
  | status => simp [State.readReg, hs rfl]
  | dataLo => simp [State.readReg, hd (.inl rfl)]
  | dataHi => simp [State.readReg, hd (.inr rfl)]
  | caps => simp [State.readReg, hp]
  | tail x => simp [State.readReg, hx x (.inl rfl)]
  | hlen x => simp [State.readReg, hx x (.inr (.inl rfl))]
  | head x i => simp [State.readReg, State.headWord, hx x (.inr (.inr ⟨i, rfl⟩))]
  | reserved => rfl

theorem setSlot_slot_of_ne (s : State) {x y : Slot} (r : SlotRegs) (h : y ≠ x) :
    (s.setSlot x r).slot y = s.slot y := by
  cases x <;> cases y <;> simp_all [State.setSlot, State.slot]

/-- A register write leaves the parameters and the host's side alone. -/
theorem writeReg_hostSide (s : State) (v : Word32) (q : WindowReg) :
    (s.writeReg v q).params = s.params ∧ (s.writeReg v q).inputs = s.inputs ∧
    (s.writeReg v q).trace = s.trace := by
  cases q <;> simp [State.writeReg]
  split <;> simp

/-- A register write never touches STATUS. -/
theorem writeReg_status (s : State) (v : Word32) (q : WindowReg) : (s.writeReg v q).status = s.status := by
  cases q <;> simp [State.writeReg]
  split <;> simp

/-! ### Commands and accesses -/

/-- Every command completes, and what it can do: write a slot, write DATA, raise an overflow, or write STATUS.EQ or
STATUS.SGN (R34). -/
theorem exec_cases (i : Instr) (s : State) :
    (∃ x r, exec i s = .next (s.writeSlot x r).succeed) ∨
    (∃ d, exec i s = .next { s with data := d }.succeed) ∨
    (∃ c, exec i s = .next (s.raiseOverflow c)) ∨
    (∃ f : Status, f.ovf = false ∧ f.neg = false ∧ f.ill = false ∧ exec i s = .next { s with status := f }) := by
  have dec : ∀ toData res,
      (∃ d, finishDecode toData res s = .next { s with data := d }.succeed) ∨
      (∃ c, finishDecode toData res s = .next (s.raiseOverflow c)) := by
    intro toData res
    cases res with
    | ok k => exact .inl ⟨_, rfl⟩
    | ovf c => exact .inr ⟨c, rfl⟩
  cases i with
  | encI32 x => exact .inl ⟨x, _, rfl⟩
  | encU32 x => exact .inl ⟨x, _, rfl⟩
  | encI64 x => exact .inl ⟨x, _, rfl⟩
  | encU64 x => exact .inl ⟨x, _, rfl⟩
  | decI32 x => exact .inr ((dec sext64 _).imp id .inl)
  | decU32 x => exact .inr ((dec zext64 _).imp id .inl)
  | decI64 x => exact .inr ((dec bv64 _).imp id .inl)
  | decU64 x => exact .inr ((dec bv64 _).imp id .inl)
  | sgn x => exact .inr (.inr (.inr ⟨_, rfl, rfl, rfl, rfl⟩))
  | eq => exact .inr (.inr (.inr ⟨_, rfl, rfl, rfl, rfl⟩))

/-- A CMD write of any word completes and leaves the parameters and the host's side alone. -/
theorem executeCommand_completes (w : Word32) (s : State) :
    ∃ t, executeCommand w s = .next t ∧ t.params = s.params ∧ t.inputs = s.inputs ∧ t.trace = s.trace := by
  unfold executeCommand
  split
  · rename_i i _
    rcases exec_cases i s with ⟨x, r, h⟩ | ⟨d, h⟩ | ⟨c, h⟩ | ⟨f, -, -, -, h⟩ <;> exact ⟨_, h, by simp⟩
  · exact ⟨_, rfl, by simp⟩

/-- A legal write completes and leaves the parameters and the host's side alone. -/
theorem memWrite_completes {offset : Nat} (v : Word32) (s : State) (h : accessRefusal offset 4 = none) :
    ∃ t, memWrite offset 4 v s = .next t ∧ t.params = s.params ∧ t.inputs = s.inputs ∧ t.trace = s.trace := by
  rw [memWrite_legal _ _ _ h]
  split
  · exact executeCommand_completes v s
  · exact ⟨_, rfl, writeReg_hostSide s v _⟩

end Sys2Proof.Machine
end

