-- ==== Sys2Proof/Tests/Slice0.lean ====
section
/-! SUPPORT. The model's own tests. Every expected value is copied from the spec: the words from 30_encoding.md R82 and
R83, the vectors from 95_test_vectors.md (named in each docstring). The witnesses at the end show, for each statement
with hypotheses, concrete inputs that meet them. -/

namespace Sys2Proof.Tests

open Sys2Proof.Machine

/-- A block with HEAD_CAP = 4 and this zero test, these two representations and this DATA; STATUS is 0. -/
def block (z : SignZeroTest) (d : Word64) (a b : Rep) : State :=
  { State.resetWith ⟨4, z⟩ with data := d, slotA := slotOfRep 4 a, slotB := slotOfRep 4 b }

/-- The representation of 0. -/
def zero : Rep := ⟨0x00000000, []⟩

/-- The block with one access pending. -/
def withAccess (a : HostAccess) (s : State) : State := { s with inputs := [a] }

/-- A property of the state a completed step reaches. -/
def after (o : Host.Outcome State Fault Refusal) (p : State → Bool) : Bool :=
  match o with
  | .next t => p t
  | .fault _ => false
  | .refused _ => false

/-! ### Well-formedness: one ill-formed term for each check -/

theorem test_params_headCap_too_small : ¬ Params.WellFormed ⟨1, .full⟩ := by decide
theorem test_params_headCap_too_big : ¬ Params.WellFormed ⟨13, .coded⟩ := by decide
theorem test_params_headCap_bounds : Params.WellFormed ⟨2, .full⟩ ∧ Params.WellFormed ⟨12, .coded⟩ := by decide
theorem test_params_default : Params.WellFormed Params.default := by decide
theorem test_instr_wellFormed : Instr.wellFormed (.encI32 .b) = true ∧ Instr.wellFormed .eq = true := by decide

/-! ### Decoding: the words of R82, bit by bit as RSV(27) SLOT(1) OP(4), and as the numbers the spec prints -/

theorem test_decode_encI32 :
    decodeWord 0b00000000000000000000000000000001#32 = .command (.encI32 .a) ∧
    decodeWord 0x00000011#32 = .command (.encI32 .b) := by decide
theorem test_decode_encU32 :
    decodeWord 0b00000000000000000000000000000010#32 = .command (.encU32 .a) ∧
    decodeWord 0x00000012#32 = .command (.encU32 .b) := by decide
theorem test_decode_encI64 :
    decodeWord 0x00000003#32 = .command (.encI64 .a) ∧
    decodeWord 0b00000000000000000000000000010011#32 = .command (.encI64 .b) := by decide
theorem test_decode_encU64 :
    decodeWord 0x00000004#32 = .command (.encU64 .a) ∧
    decodeWord 0b00000000000000000000000000010100#32 = .command (.encU64 .b) := by decide
theorem test_decode_decI32 :
    decodeWord 0b00000000000000000000000000000101#32 = .command (.decI32 .a) ∧
    decodeWord 0x00000015#32 = .command (.decI32 .b) := by decide
theorem test_decode_decU32 :
    decodeWord 0x00000006#32 = .command (.decU32 .a) ∧
    decodeWord 0b00000000000000000000000000010110#32 = .command (.decU32 .b) := by decide
theorem test_decode_decI64 :
    decodeWord 0b00000000000000000000000000000111#32 = .command (.decI64 .a) ∧
    decodeWord 0x00000017#32 = .command (.decI64 .b) := by decide
theorem test_decode_decU64 :
    decodeWord 0x00000008#32 = .command (.decU64 .a) ∧
    decodeWord 0b00000000000000000000000000011000#32 = .command (.decU64 .b) := by decide
theorem test_decode_sgn :
    decodeWord 0b00000000000000000000000000001001#32 = .command (.sgn .a) ∧
    decodeWord 0x00000019#32 = .command (.sgn .b) := by decide
theorem test_decode_eq :
    decodeWord 0b00000000000000000000000000001010#32 = .command .eq ∧
    decodeTableWord 32 0x0000000A = some .eq := by decide

/-- Table 2.6 of 95_test_vectors.md: the nine illegal words. -/
theorem test_decode_illegal :
    decodeWord 0x00000000#32 = .reject .reservedOpcode ∧ decodeWord 0x0000000B#32 = .reject .reservedOpcode ∧
    decodeWord 0x0000000F#32 = .reject .reservedOpcode ∧ decodeWord 0x0000001A#32 = .reject .eqSlotB ∧
    decodeWord 0x0000001B#32 = .reject .reservedOpcode ∧ decodeWord 0x00000020#32 = .reject .reservedBits ∧
    decodeWord 0x00000021#32 = .reject .reservedBits ∧ decodeWord 0x80000001#32 = .reject .reservedBits ∧
    decodeWord 0xFFFFFFFF#32 = .reject .reservedBits := by decide

theorem test_decode_bytes : decodeBytes [0x13, 0x00, 0x00, 0x00] = .command (.encI64 .b) ∧
    decodeBytes [0x13, 0x00, 0x00] = .reject .notOneWord := by decide

/-! ### One step of each command -/

/-- ENC_I32 vectors: INT32_MIN, and DATA_HI ignored. -/
theorem test_encI32_min : after (exec (.encI32 .a) (block .full 0x0000000080000000 zero ⟨5, [6, 7]⟩))
    (fun t => decide (t.slotA = ⟨0x80000000, 1, [1, 0, 0, 0]⟩ ∧ t.slotB = ⟨5, 2, [6, 7, 0, 0]⟩)) = true := by decide
theorem test_encI32_negative : after (exec (.encI32 .b) (block .full 0xDEADBEEFFFFFCFC7 zero zero))
    (fun t => decide (t.slotB = ⟨0x80003039, 0, [0, 0, 0, 0]⟩)) = true := by decide

/-- ENC_U32 vectors. -/
theorem test_encU32_max : after (exec (.encU32 .a) (block .full 0x00000000FFFFFFFF zero zero))
    (fun t => decide (t.slotA = ⟨0x7FFFFFFF, 1, [1, 0, 0, 0]⟩)) = true := by decide
theorem test_encU32_ignores_high : after (exec (.encU32 .b) (block .full 0xFFFFFFFF00000007 zero ⟨1, [2]⟩))
    (fun t => decide (t.slotB = ⟨0x00000007, 0, [0, 0, 0, 0]⟩)) = true := by decide

/-- ENC_I64 vectors: INT64_MIN, and a head word with bit 31 set. -/
theorem test_encI64_min : after (exec (.encI64 .b) (block .full 0x8000000000000000 zero ⟨9, [1, 2, 3]⟩))
    (fun t => decide (t.slotB = ⟨0x80000000, 2, [1, 0, 0, 0]⟩)) = true := by decide
theorem test_encI64_head_bit31 : after (exec (.encI64 .a) (block .full 0x8000000000000001 zero zero))
    (fun t => decide (t.slotA = ⟨0xFFFFFFFF, 1, [0xFFFFFFFF, 0, 0, 0]⟩)) = true := by decide

/-- ENC_U64 vectors. -/
theorem test_encU64_max : after (exec (.encU64 .a) (block .full 0xFFFFFFFFFFFFFFFF zero zero))
    (fun t => decide (t.slotA = ⟨0x7FFFFFFF, 2, [1, 0xFFFFFFFF, 0, 0]⟩)) = true := by decide
theorem test_encU64_pattern : after (exec (.encU64 .b) (block .full 0x123456789ABCDEF0 zero zero))
    (fun t => decide (t.slotB = ⟨0x1ABCDEF0, 1, [0x2468ACF1, 0, 0, 0]⟩)) = true := by decide

/-- DEC_I32: table 2.4 rows 7 and 8. -/
theorem test_decI32_min : after (exec (.decI32 .a) (block .full 7 ⟨0x80000000, [1]⟩ zero))
    (fun t => decide (t.data = 0xFFFFFFFF80000000 ∧ t.status.toWord = 0)) = true := by decide
theorem test_decI32_overflow : after (exec (.decI32 .b) (block .full 7 zero ⟨0x00000000, [1]⟩))
    (fun t => decide (t.data = 7 ∧ t.status.toWord = 1)) = true := by decide

/-- DEC_U32: table 2.4 rows 9 and 28 (CODED). -/
theorem test_decU32_max : after (exec (.decU32 .a) (block .full 7 ⟨0x7FFFFFFF, [1]⟩ zero))
    (fun t => decide (t.data = 0x00000000FFFFFFFF)) = true := by decide
theorem test_decU32_coded_zero : after (exec (.decU32 .a) (block .coded 0x12345678 ⟨0x80000000, [0]⟩ zero))
    (fun t => decide (t.data = 0x12345678 ∧ t.status.toWord = 3)) = true := by decide

/-- DEC_I64: table 2.4 rows 17 and 23. -/
theorem test_decI64_min : after (exec (.decI64 .b) (block .full 7 zero ⟨0x80000000, [1, 0]⟩))
    (fun t => decide (t.data = 0x8000000000000000 ∧ t.status.toWord = 0)) = true := by decide
theorem test_decI64_leading_zero : after (exec (.decI64 .a) (block .full 7 ⟨0x00000000, [0, 5]⟩ zero))
    (fun t => decide (t.data = 7 ∧ t.status.toWord = 1)) = true := by decide

/-- DEC_U64: table 2.4 rows 23 and 26 (FULL). -/
theorem test_decU64_leading_zero : after (exec (.decU64 .a) (block .full 7 ⟨0x00000000, [0, 5]⟩ zero))
    (fun t => decide (t.data = 10737418240)) = true := by decide
theorem test_decU64_long_zero_head : after (exec (.decU64 .b) (block .full 7 zero ⟨0x80000000, [0, 0, 0]⟩))
    (fun t => decide (t.data = 7 ∧ t.status.toWord = 1)) = true := by decide

/-- SGN: table 2.3, a row the two settings tell apart. -/
theorem test_sgn_full : after (exec (.sgn .b) (block .full 7 zero ⟨0x80000000, [0, 0]⟩))
    (fun t => decide (t.status.toWord = 0)) = true := by decide
theorem test_sgn_coded : after (exec (.sgn .b) (block .coded 7 zero ⟨0x80000000, [0, 0]⟩))
    (fun t => decide (t.status.toWord = 0x30)) = true := by decide

/-- EQ: table 2.5, a difference in bit 31 of a head word only, and equal slots. -/
theorem test_eq_bit31 : after (exec .eq (block .full 7 ⟨0x12345678, [0xFFFFFFFF]⟩ ⟨0x12345678, [0x7FFFFFFF]⟩))
    (fun t => decide (t.status.toWord = 0)) = true := by decide
theorem test_eq_equal : after (exec .eq (block .full 7 ⟨0x80000000, [1, 0]⟩ ⟨0x80000000, [1, 0]⟩))
    (fun t => decide (t.status.toWord = 8)) = true := by decide

/-! ### The window (table 2.7), STATUS (table 2.6), reset -/

/-- STATUS 0x00000039 before the word: OVF = 1, EQ = 1, SGN = 11. -/
def status39 : State := { block .full 7 zero zero with status := ⟨true, false, false, true, 0b11⟩ }

theorem test_illegal_word : after (step (withAccess (.write 0x000 4 0x80000001) status39))
    (fun t => decide (t.status.toWord = 0x0000003C)) = true := by decide
theorem test_legal_sgn_word : after (step (withAccess (.write 0x000 4 0x00000019) status39))
    (fun t => decide (t.status.toWord = 0x00000008)) = true := by decide
theorem test_caps : State.reset.windowRead 0x010 = 0x00000004#32 ∧
    (State.resetWith ⟨12, .coded⟩).windowRead 0x010 = 0x0000001C#32 := by decide
theorem test_status_write_ignored : after (step (withAccess (.write 0x004 4 0xFFFFFFFF) State.reset))
    (fun t => decide (t = State.reset)) = true := by decide
theorem test_hlen_write_ignored : after (step (withAccess (.write 0x044 4 5) (block .full 0 ⟨0, [1]⟩ zero)))
    (fun t => decide (t.windowRead 0x044 = 1)) = true := by decide
theorem test_hlen_write : after (step (withAccess (.write 0x044 4 4) (block .full 0 ⟨0, [1]⟩ zero)))
    (fun t => decide (t.windowRead 0x044 = 4)) = true := by decide
theorem test_reserved_reads : (block .full 0 ⟨9, [9, 9, 9, 9]⟩ zero).windowRead 0x014 = 0 ∧
    (block .full 0 ⟨9, [9, 9, 9, 9]⟩ zero).windowRead 0x048 = 0 ∧
    (block .full 0 ⟨9, [9, 9, 9, 9]⟩ zero).windowRead 0x060 = 0 := by decide
theorem test_reserved_write : after (step (withAccess (.write 0x060 4 0x12345678) State.reset))
    (fun t => decide (t = State.reset)) = true := by decide
theorem test_slot_offsets : (block .full 0 zero ⟨1, [2, 3, 4, 5]⟩).windowRead 0x080 = 1 ∧
    (block .full 0 zero ⟨1, [2, 3, 4, 5]⟩).windowRead 0x084 = 4 ∧
    (block .full 0 zero ⟨1, [2, 3, 4, 5]⟩).windowRead 0x090 = 2 ∧
    (block .full 0 zero ⟨1, [2, 3, 4, 5]⟩).windowRead 0x09C = 5 := by decide
theorem test_data_words : (block .full 0x123456789ABCDEF0 zero zero).windowRead 0x008 = 0x9ABCDEF0 ∧
    (block .full 0x123456789ABCDEF0 zero zero).windowRead 0x00C = 0x12345678 := by decide

/-- The accesses table 2.7 calls outside the interface. -/
theorem test_access_refusals : accessRefusal 0x0C0 4 = some .accessOutsideWindow ∧
    accessRefusal 0x004 2 = some .accessWidth ∧ accessRefusal 0x004 8 = some .accessWidth ∧
    accessRefusal 0x002 4 = some .accessMisaligned ∧ accessRefusal 0x0BC 4 = none := by decide

theorem test_ldrep_expansion :
    HostStmt.expand State.reset (.ldrep .b 0x00000007 [0xAAAAAAAA, 0xBBBBBBBB, 0xCCCCCCCC]) =
      [.write 0x080 4 0x00000007, .write 0x090 4 0xAAAAAAAA, .write 0x094 4 0xBBBBBBBB,
        .write 0x098 4 0xCCCCCCCC, .write 0x084 4 0x00000003] := by decide
theorem test_rdrep_expansion :
    HostStmt.expand (block .full 0 ⟨0x80000000, [1]⟩ zero) (.rdrep .a) =
      [.read 0x040 4, .read 0x044 4, .read 0x050 4] := by decide
theorem test_li64_expansion : HostStmt.expand State.reset (.li64 0x8000000000000000) =
    [.write 0x008 4 0x00000000, .write 0x00C 4 0x80000000] := by decide
theorem test_plain_expansions :
    HostStmt.expand State.reset (.li32 5) = [.write 0x008 4 5] ∧
    HostStmt.expand State.reset .rd64 = [.read 0x008 4, .read 0x00C 4] ∧
    HostStmt.expand State.reset .rdst = [.read 0x004 4] ∧
    HostStmt.expand State.reset (.command (.decU64 .b)) = [.write 0x000 4 0x00000018] ∧
    HostStmt.expand State.reset (.cmd 0x80000002) = [.write 0x000 4 0x80000002] := by decide

/-! ### The text of the host assembly: lines of programs P4 to P6 of 95_test_vectors.md -/

theorem test_line_ldrep : readLine "LDREP A, 0x80000000, [0x00000000]  ; W 0x040".toList =
    .statement (.ldrep .a 0x80000000 [0x00000000]) := by decide
theorem test_line_wr : readLine "wr 0x044, 0x00000005 ; W 0x044".toList = .statement (.wr 0x044 5) := by decide
theorem test_line_command : readLine "DEC_U64 B ; W".toList = .statement (.command (.decU64 .b)) ∧
    readLine "EQ".toList = .statement (.command .eq) ∧ readLine "EQ B".toList = .malformed := by decide
theorem test_line_numbers : readLine "rd 20".toList = .statement (.rd 0x014) ∧
    readLine "CMD 0x100000000".toList = .malformed ∧ readLine "  ; only a comment".toList = .blank := by decide

/-- Table 2.1: PACK and UNPACK. -/
theorem test_pack : pack true (2 ^ 64 - 1) = ⟨0xFFFFFFFF, [0x00000001, 0xFFFFFFFF]⟩ ∧
    pack false (2 ^ 62) = ⟨0x00000000, [0x80000000]⟩ ∧ pack true 0 = ⟨0x80000000, []⟩ := by decide
theorem test_unpack : unpack ⟨0xFFFFFFFF, [0xFFFFFFFF]⟩ = some 9223372036854775807 ∧
    unpack ⟨0x00000003, [0x00000000, 0x00000005]⟩ = some 10737418243 ∧
    unpack ⟨0x00000000, [0x00000002, 0x00000000]⟩ = none ∧
    unpack ⟨0x00000000, [0x00000000, 0x00000000, 0x00000000]⟩ = none := by decide

/-! ### Witnesses: inputs that meet the hypotheses of each statement that has some, at the boundary of each clause -/

theorem witness_IllegalWords : (∃ r, decodeWord 0xFFFFFFFF#32 = .reject r) ∧ (∃ r, decodeWord 0x0000001A#32 = .reject r) ∧
    ∃ r, decodeWord 0x00000010#32 = .reject r := ⟨⟨_, rfl⟩, ⟨_, rfl⟩, ⟨_, rfl⟩⟩

theorem witness_ByteLanes : (byteOfWord 0x80000000#32 3).getLsbD 7 = (0x80000000#32 : Word32).getLsbD (8 * 3 + 7) ∧
    3 < 4 ∧ 7 < 8 := by decide

theorem witness_CmdWriteStep : (withAccess (.write 0x000 4 0x00000013) State.reset).inputs = .write 0x000 4 0x00000013 :: [] ∧
    decodeWord 0x00000013#32 = .command (.encI64 .b) ∧ Instr.wellFormed (.encI64 .b) = true := by decide

theorem witness_PlacedWord : decodeTableWord 32 0x0000000A = some .eq ∧ decodeTableWord 8 0x119 = some (.sgn .b) := by
  decide

theorem witness_Idle : State.reset.inputs = [] := rfl

theorem witness_OutsideAccesses :
    (withAccess (.read 0x0C0 4) State.reset).inputs = .read 0x0C0 4 :: [] ∧ ¬ (HostAccess.read 0x0C0 4).Legal ∧
    ¬ (HostAccess.write 0x0BC 2 0).Legal ∧ ¬ (HostAccess.read 0x0BE 4).Legal ∧ (HostAccess.read 0x0BC 4).Legal ∧
    HostAccess.reset.Legal := by decide

theorem witness_LegalRun :
    ∀ a ∈ ({ status39 with inputs := [.read 0x0BC 4, .write 0x000 4 0xFFFFFFFF, .reset] } : State).inputs, a.Legal := by
  simp [HostAccess.Legal]

theorem witness_AccessOrder : (withAccess (.read 0x010 4) State.reset).inputs = .read 0x010 4 :: [] ∧
    step (withAccess (.read 0x010 4) State.reset) = .next { State.reset with trace := [0x00000004] } ∧
    (withAccess (.write 0x00C 4 7) State.reset).inputs = .write 0x00C 4 7 :: [] ∧
    step (withAccess (.write 0x00C 4 7) State.reset) = .next { State.reset with data := 0x0000000700000000 } ∧
    (withAccess .reset status39).inputs = .reset :: [] ∧ step (withAccess .reset status39) = .next State.reset :=
  ⟨rfl, rfl, rfl, rfl, rfl, rfl⟩

theorem witness_Inv : (block .full 0x12345678 ⟨9, [1, 2, 3, 4]⟩ zero).Inv ∧ status39.Inv ∧
    (State.resetWith ⟨2, .coded⟩).Inv ∧ (State.resetWith ⟨12, .full⟩).Inv := by decide

theorem witness_RegisterMap : State.reset.Inv ∧ 3 < State.reset.params.headCap := by decide

theorem witness_Reserved : State.reset.Inv ∧ (0x03C % 4 = 0 ∧ 0x014 ≤ 0x03C ∧ 0x03C < 0x040) ∧
    (0x04C % 4 = 0 ∧ 0x04C = slotBase .a + 0x0C) ∧
    (0x0BC % 4 = 0 ∧ State.reset.params.headCap ≤ 11 ∧ 11 < 12 ∧ 0x0BC = slotBase .b + 0x10 + 4 * 11) ∧
    (0x060 % 4 = 0 ∧ State.reset.params.headCap ≤ 4 ∧ 0x060 = slotBase .a + 0x10 + 4 * 4) := by decide

theorem witness_RegisterWrite : State.reset.Inv ∧ 0x080 = slotBase .b ∧ 3 < State.reset.params.headCap ∧
    0x09C = slotBase .b + 0x10 + 4 * 3 := by decide

theorem witness_Hlen : State.reset.Inv ∧ (4 : Word32).toNat ≤ State.reset.params.headCap ∧
    State.reset.params.headCap < (5 : Word32).toNat ∧ (State.reset.slot .a).hlen = 0 := by decide

theorem witness_Caps : State.reset.Inv ∧ step State.reset = .next State.reset ∧
    step (withAccess .reset status39) = .next State.reset := ⟨by decide, rfl, rfl⟩

theorem witness_Magnitude : (1 : Word32).toNat ≤ 1 ∧ 1 < (2 : Word32).toNat ∧
    2 < (⟨0, [0, 0, 0]⟩ : Rep).head.length ∧ mag ⟨0x80000000, []⟩ = some 0 ∧ mag ⟨0x80000001, []⟩ = some 1 ∧
    (0x80000001#32 : Word32).getLsbD 31 = true ∧ mag ⟨0x00000001, []⟩ = some 1 ∧
    (0x00000001#32 : Word32).getLsbD 31 = false ∧ mag ⟨0, [2, 0]⟩ = none := by decide

theorem witness_Unpack : 2 ^ 64 - 1 ≤ 2 ^ 64 - 1 ∧ unpack ⟨0x7FFFFFFF, [1, 0xFFFFFFFF]⟩ = some (2 ^ 64 - 1) ∧
    (0x80000005#32 : Word32).toNat % 2 ^ 31 = (0x00000005#32 : Word32).toNat % 2 ^ 31 := by decide

theorem witness_PackShape : 2 ^ 31 - 1 < 2 ^ 31 ∧ (2 ^ 31 ≤ 2 ^ 63 - 1 ∧ 2 ^ 63 - 1 < 2 ^ 63) ∧
    (2 ^ 63 ≤ 2 ^ 64 - 1 ∧ 2 ^ 64 - 1 < 2 ^ 64) := by decide

/-- The ranges of the four native types, at both ends (R9). -/
theorem witness_NativeRanges : ((-2 : Int) ^ 31 ≤ -2 ^ 31 ∧ (-2 : Int) ^ 31 ≤ 2 ^ 31 - 1) ∧
    ((-2 : Int) ^ 63 ≤ 2 ^ 63 - 1 ∧ (2 : Int) ^ 63 - 1 ≤ 2 ^ 63 - 1) ∧ 2 ^ 32 - 1 ≤ 2 ^ 32 - 1 ∧
    2 ^ 64 - 1 ≤ 2 ^ 64 - 1 := by decide

/-- R173's clauses: a canonical representation with a head and a magnitude, and one where the zero tests differ. -/
theorem witness_ZeroTests :
    (Canonical ⟨0x00000000, [1]⟩ ∧ mag ⟨0x00000000, [1]⟩ = some (2 ^ 31)) ∧
    isZero .full ⟨0x80000000, [0]⟩ ≠ isZero .coded ⟨0x80000000, [0]⟩ :=
  ⟨⟨.inl ⟨2 ^ 31, by decide, by decide⟩, by decide⟩, by decide⟩

/-- Canonical representations of both signs with their values, at the widest magnitudes of each. -/
theorem witness_Canonical :
    (Canonical ⟨0x80000000, [1, 0]⟩ ∧ val ⟨0x80000000, [1, 0]⟩ = some (-2 ^ 63)) ∧
    (Canonical ⟨0x7FFFFFFF, [1, 0xFFFFFFFF]⟩ ∧ val ⟨0x7FFFFFFF, [1, 0xFFFFFFFF]⟩ = some (2 ^ 64 - 1)) :=
  ⟨⟨.inr ⟨2 ^ 63, by decide, by decide, by decide⟩, by decide⟩, ⟨.inl ⟨2 ^ 64 - 1, by decide, by decide⟩, by decide⟩⟩

theorem witness_Equality : eqRep ⟨5, [6]⟩ ⟨5, [6]⟩ = true := by decide

theorem witness_EncoderFrame : after (exec (.encU64 .b) status39) (fun t => decide (t.slotB ≠ ⟨0, 0, []⟩)) = true ∧
    (0x07C < slotBase .b ∧ slotBase .a + 0x40 ≤ 0x080) := by decide

theorem witness_DecI32 :
    ((block .full 0 ⟨0xFFFFFFFF, []⟩ zero).readSlot .a).head = [] ∧
    (block .full 0 ⟨0x80000000, [1]⟩ zero).readSlot .a = ⟨0x80000000, [0x00000001]⟩ ∧
    (((block .full 0 ⟨0x80000000, [1, 0]⟩ zero).readSlot .a).head ≠ [] ∧
      (block .full 0 ⟨0x80000000, [1, 0]⟩ zero).readSlot .a ≠ ⟨0x80000000, [0x00000001]⟩) := by decide

theorem witness_DecU32 :
    signOf .full ((block .full 0 ⟨0x80000001, []⟩ zero).readSlot .a) = .neg ∧
    (signOf .full ((block .full 0 ⟨0, [2]⟩ zero).readSlot .a) ≠ .neg ∧
      ((block .full 0 ⟨0, [2]⟩ zero).readSlot .a).head = [2] ∧ 1 < (2 : Word32).toNat) ∧
    (signOf .full ((block .full 0 ⟨0, [0, 1]⟩ zero).readSlot .a) ≠ .neg ∧
      1 < ((block .full 0 ⟨0, [0, 1]⟩ zero).readSlot .a).head.length) ∧
    (signOf .full ((block .full 0 ⟨7, []⟩ zero).readSlot .a) ≠ .neg ∧
      ((block .full 0 ⟨7, []⟩ zero).readSlot .a).head = []) ∧
    (signOf .full ((block .full 0 ⟨7, [1]⟩ zero).readSlot .a) ≠ .neg ∧
      ((block .full 0 ⟨7, [1]⟩ zero).readSlot .a).head = [1] ∧ (1 : Word32).toNat ≤ 1) := by decide

theorem witness_DecI64 :
    (((block .full 0 ⟨0xFFFFFFFF, [0xFFFFFFFF]⟩ zero).readSlot .a).head.length ≤ 1 ∧
      mag ((block .full 0 ⟨0xFFFFFFFF, [0xFFFFFFFF]⟩ zero).readSlot .a) = some (2 ^ 63 - 1)) ∧
    (block .full 0 ⟨0x80000000, [1, 0]⟩ zero).readSlot .a = ⟨0x80000000, [0x00000001, 0x00000000]⟩ ∧
    (2 ≤ ((block .full 0 ⟨0, [1, 0]⟩ zero).readSlot .a).head.length ∧
      (block .full 0 ⟨0, [1, 0]⟩ zero).readSlot .a ≠ ⟨0x80000000, [0x00000001, 0x00000000]⟩) := by decide

theorem witness_DecU64 :
    signOf .full ((block .full 0 ⟨0x80000000, [1, 0]⟩ zero).readSlot .a) = .neg ∧
    (signOf .full ((block .full 0 ⟨0, [0, 0, 0]⟩ zero).readSlot .a) ≠ .neg ∧
      2 < ((block .full 0 ⟨0, [0, 0, 0]⟩ zero).readSlot .a).head.length) ∧
    (signOf .full ((block .full 0 ⟨0, [2, 0]⟩ zero).readSlot .a) ≠ .neg ∧
      ((block .full 0 ⟨0, [2, 0]⟩ zero).readSlot .a).head = [2, 0] ∧ 1 < (2 : Word32).toNat) ∧
    (signOf .full ((block .full 0 ⟨0, [1, 0]⟩ zero).readSlot .a) ≠ .neg ∧
      mag ((block .full 0 ⟨0, [1, 0]⟩ zero).readSlot .a) = some (2 ^ 63)) := by decide

theorem witness_DecoderFrame :
    after (exec (.decU64 .a) (block .full 7 ⟨0x80000001, []⟩ zero)) (fun t => t.status.ovf) = true ∧
    after (exec (.decU64 .a) (block .full 7 ⟨0x00000001, []⟩ zero)) (fun t => decide (t.data = 1)) = true := by
  decide

/-- The two slot contents, and the two zero tests on them: 0 is false under FULL of the first, true under CODED of
the second. -/
theorem witness_Sgn :
    (block .full 0 ⟨0x80000000, [0, 1]⟩ zero).params.signZeroTest = .full ∧
    (block .full 0 ⟨0x80000000, [0, 1]⟩ zero).readSlot .a = ⟨0x80000000, [0, 1]⟩ ∧
    (false = true ↔ (0x80000000#32).toNat % 2 ^ 31 = 0 ∧ ∀ h ∈ [0#32, 1#32], h = 0) ∧
    (block .coded 0 ⟨0x80000000, []⟩ zero).params.signZeroTest = .coded ∧
    (block .coded 0 ⟨0x80000000, []⟩ zero).readSlot .a = ⟨0x80000000, []⟩ ∧
    (true = true ↔ (0x80000000#32).toNat % 2 ^ 31 = 0 ∧ ([] : List Word32) = []) :=
  ⟨rfl, rfl, by simp, rfl, rfl, by simp⟩

theorem witness_EqUnusedWord : ((block .full 0 ⟨5, [6]⟩ zero).slot .a).hlen ≤ 1 ∧
    after (exec .eq State.reset.platformReset) (fun t => t.status.eq) = true := by decide

theorem witness_QueryFrame : decodeWord 0x00000019#32 = .command (.sgn .b) ∧ decodeWord 0x0000000A#32 = .command .eq ∧
    decodeWord 0x0000001A#32 = .reject .eqSlotB ∧
    after (executeCommand 0x0000001A status39) (fun t => t.status.ill) = true := by decide

theorem witness_Idempotent : after (exec (.decI64 .a) (block .full 7 ⟨0x80000001, []⟩ zero))
    (fun t => decide (t.data = 0xFFFFFFFFFFFFFFFF)) = true := by decide

/-- Two blocks that differ only in a head word beyond HLEN. -/
theorem witness_UnusedHeadWords :
    let s := block .full 7 ⟨5, [6]⟩ zero
    let s' := { s with slotA := ⟨5, 1, [6, 0, 0xFFFFFFFF, 0]⟩ }
    s ≠ s' ∧ s.params = s'.params ∧ s.data = s'.data ∧ s.status = s'.status ∧
      s.readSlot .a = s'.readSlot .a ∧ s.readSlot .b = s'.readSlot .b := by decide

theorem witness_EncodeThenDecode : after (exec (.encI32 .b) (block .full 0x0000000080000000 zero zero))
    (fun t => decide (t.readSlot .b = ⟨0x80000000, [1]⟩)) = true := by decide

theorem witness_Reset : (withAccess .reset status39).inputs = .reset :: [] ∧ Params.WellFormed ⟨12, .coded⟩ := by
  decide

theorem witness_StepKeepsInv : (withAccess (.write 0x000 4 0x00000014) status39).Inv ∧
    after (step (withAccess (.write 0x000 4 0x00000014) status39)) (fun t => decide (t.slotB.tail = 7)) = true := by
  decide

theorem witness_Ldrep : (State.resetWith ⟨12, .full⟩).Inv ∧ (List.replicate 12 (7 : Word32)).length ≤ 12 := by decide

theorem witness_Rdrep : (block .full 0 ⟨9, [1, 2, 3, 4]⟩ zero).Inv ∧
    ((block .full 0 ⟨9, [1, 2, 3, 4]⟩ zero).slot .a).hlen = 4 := by decide

end Sys2Proof.Tests
end

section
/-! PROOFS. HLEN and CAPS as the host sees them, and the parameters along a step (spec 10_state.md R24, R27). -/

namespace Sys2Proof.Machine

/-! ### Slots under the invariant, and HLEN in the window -/

theorem slot_wellFormed {s : State} (h : s.Inv) (x : Slot) : (s.slot x).WellFormed s.params.headCap := by
  obtain ⟨-, hA, hB, -⟩ := h
  cases x with
  | a => exact hA
  | b => exact hB

@[simp] theorem windowReg_hlen (cap : Nat) (x : Slot) : windowReg cap (slotBase x + 0x04) = .hlen x := by
  rw [windowReg_slotBase_add cap x (by omega)]
  rfl

@[simp] theorem windowRead_hlen (s : State) (x : Slot) :
    s.windowRead (slotBase x + 0x04) = BitVec.ofNat 32 (s.slot x).hlen := by
  rw [State.windowRead, windowReg_hlen, State.readReg]

/-- A host write of HLEN, whole: it sets a value up to HEAD_CAP and ignores a larger one (R24). -/
theorem memWrite_hlen (s : State) (x : Slot) (v : Word32) :
    memWrite (slotBase x + 0x04) 4 v s =
      .next (if v.toNat ≤ s.params.headCap then s.setSlot x { s.slot x with hlen := v.toNat } else s) := by
  have legal : accessRefusal (slotBase x + 0x04) 4 = none := by cases x <;> rfl
  rw [memWrite_legal _ _ _ legal, windowReg_hlen, if_neg (by simp), State.writeReg]

/-- HLEN = 0 is the empty head (R24, R25). -/
theorem readSlot_head_eq_nil {s : State} {x : Slot} (h : (s.slot x).hlen = 0) : (s.readSlot x).head = [] := by
  rw [State.readSlot, h, List.take_zero]

@[simp] theorem readSlot_platformReset (s : State) (x : Slot) :
    s.platformReset.readSlot x = ⟨0x00000000, []⟩ := by
  simp [State.readSlot]

/-! ### CAPS, and the parameters along a step -/

@[simp] theorem windowRead_caps (s : State) : s.windowRead 0x010 = capsWord s.params := rfl

/-- A host write of CAPS is ignored (R27). -/
@[simp] theorem memWrite_caps (v : Word32) (s : State) : memWrite 0x010 4 v s = .next s := rfl

/-- CAPS as a number: the SZT bit over the four bits of HEAD_CAP (R27). -/
theorem capsWord_toNat {p : Params} (h : p.headCap < 2 ^ 4) :
    (capsWord p).toNat = 2 ^ 4 * (sztBit p.signZeroTest).toNat + p.headCap := by
  simp only [capsWord, BitVec.toNat_append, BitVec.toNat_ofNat, Nat.mod_eq_of_lt h]
  rw [← Nat.shiftLeft_add_eq_or_of_lt h]
  simp [Nat.shiftLeft_eq, Nat.mul_comm]

/-- CAPS[4] is the SZT bit (R27). -/
theorem capsWord_getLsbD_four_iff (p : Params) : (capsWord p).getLsbD 4 = true ↔ p.signZeroTest = .coded := by
  have bit : (capsWord p).getLsbD 4 = (sztBit p.signZeroTest).getLsbD 0 := by
    rw [capsWord, BitVec.getLsbD_append, BitVec.getLsbD_append]
    rfl
  rw [bit]
  cases p.signZeroTest with
  | full => decide
  | coded => decide

/-- An access that completes leaves the parameters alone, a reset among them (R27). -/
theorem performAccess_params {a : HostAccess} {s t : State} (h : performAccess a s = .next t) :
    t.params = s.params := by
  cases a with
  | read offset bytes =>
    cases hr : accessRefusal offset bytes with
    | some r => simp [performAccess, memRead, hr] at h
    | none =>
      simp only [performAccess, memRead, hr, Host.Outcome.next.injEq] at h
      rw [← h, State.report_params]
  | write offset bytes v =>
    cases hr : accessRefusal offset bytes with
    | some r => simp [performAccess, memWrite, hr] at h
    | none =>
      obtain ⟨rfl, -, -⟩ := (accessRefusal_eq_none_iff offset bytes).1 hr
      obtain ⟨u, hu, hp, -, -⟩ := memWrite_completes v s hr
      rw [performAccess, hu] at h
      cases h
      exact hp
  | reset =>
    cases h
    exact State.platformReset_params s

/-- With nothing pending a step changes nothing (R13). -/
theorem step_of_no_inputs {s : State} (h : s.inputs = []) : step s = .next s := by
  simp only [step, stepOnce, State.takeAccess, h]

/-- No step changes the parameters (R27). -/
theorem step_params {s t : State} (h : step s = .next t) : t.params = s.params := by
  cases hi : s.inputs with
  | nil =>
    rw [step_of_no_inputs hi] at h
    cases h
    rfl
  | cons a rest =>
    rw [step_of_inputs hi] at h
    exact performAccess_params (s := { s with inputs := rest }) h

/-! ### The obligations of 10_state.md -/

/-- Settles O14: the offset of HLEN names the register HLEN, and `memWrite_hlen` says all that a write of it does. -/
theorem hlenIsReadWrittenAndBounded : Obligations.HlenIsReadWrittenAndBounded := by
  refine ⟨fun s x v hinv => ?_, fun s x => ⟨by simp, by simp, by decide⟩⟩
  obtain ⟨hbound, -⟩ := slot_wellFormed hinv x
  obtain ⟨⟨-, hcap⟩, -⟩ := hinv
  refine ⟨hbound, windowRead_hlen s x, ?zeroExtended, ?stored, ?ignored, readSlot_head_eq_nil⟩
  case zeroExtended =>
    rw [windowRead_hlen, BitVec.toNat_ofNat]
    omega
  case stored =>
    intro hv
    exact ⟨_, by rw [memWrite_hlen, if_pos hv], by simp, rfl⟩
  case ignored =>
    intro hv
    rw [memWrite_hlen, if_neg (by omega)]

/-- Settles O16: CAPS shows the parameters only, and no step changes those (`step_params`). -/
theorem capsHoldsTheParametersForLife : Obligations.CapsHoldsTheParametersForLife := by
  rintro s ⟨⟨-, hcap⟩, -⟩
  have hword := capsWord_toNat (p := s.params) (by omega)
  have hbit := (sztBit s.params.signZeroTest).isLt
  refine ⟨?headCap, capsWord_getLsbD_four_iff s.params, ?reserved, fun v => memWrite_caps v s, by simp, ?step⟩
  case headCap => rw [windowRead_caps, hword]; omega
  case reserved => rw [windowRead_caps, hword]; omega
  case step =>
    intro t ht
    have hp := step_params ht
    exact ⟨hp, by simp [hp]⟩

end Sys2Proof.Machine
end

section
/-! PROOFS. The reserved offsets of the register window (spec 20_memory.md R51, R52). -/

namespace Sys2Proof.Machine

/-! ### Where the map has no register -/

/-- Between CAPS and slot A no register stands. -/
theorem windowReg_between_caps_and_slots {cap o : Nat} (h : 0x014 ≤ o) (h' : o < 0x040) :
    windowReg cap o = .reserved := by
  unfold windowReg
  simp (disch := omega) only [if_neg]

/-- Between HLEN and the first head word of a slot no register stands. -/
theorem slotReg_between_hlen_and_head (cap : Nat) (x : Slot) {rel : Nat} (h : 0x04 < rel) (h' : rel < 0x10) :
    slotReg cap x rel = .reserved := by
  unfold slotReg
  simp (disch := omega) only [if_neg]

/-- A head word that the parameter leaves out has no register. -/
theorem slotReg_head_beyond_cap {cap i : Nat} (x : Slot) (h : cap ≤ i) :
    slotReg cap x (0x10 + 4 * i) = .reserved := by
  unfold slotReg
  simp (disch := omega) only [if_neg]

/-- A slot's block lies inside the window, and a place in it without a register is reserved there too. -/
theorem windowReg_reserved_of_slotReg {cap rel : Nat} {x : Slot} (hrel : rel < 0x40)
    (h : slotReg cap x rel = .reserved) :
    slotBase x + rel < 0x0C0 ∧ windowReg cap (slotBase x + rel) = .reserved := by
  refine ⟨?inside, by rw [windowReg_slotBase_add cap x hrel, h]⟩
  case inside => cases x <;> simp only [slotBase] <;> omega

/-! ### An access where no register stands -/

theorem memRead_reserved {s : State} {offset : Nat} (legal : accessRefusal offset 4 = none)
    (h : windowReg s.params.headCap offset = .reserved) : memRead offset 4 s = .next (s.report 0) := by
  rw [memRead_legal _ _ legal, State.windowRead, h, State.readReg]

theorem memWrite_reserved {s : State} {offset : Nat} (v : Word32) (legal : accessRefusal offset 4 = none)
    (h : windowReg s.params.headCap offset = .reserved) : memWrite offset 4 v s = .next s := by
  rw [memWrite_legal _ _ _ legal, h, if_neg (by simp), State.writeReg]

/-! ### The obligation of 20_memory.md §1 -/

/-- Settles O12: each family of reserved offsets lies inside the window at a place where the map has no register. -/
theorem reservedOffsetsReadZeroAndIgnoreWrites : Obligations.ReservedOffsetsReadZeroAndIgnoreWrites := by
  intro s offset v _ aligned family
  have place : offset < 0x0C0 ∧ windowReg s.params.headCap offset = .reserved := by
    obtain ⟨lo, hi⟩ | ⟨x, rfl | rfl⟩ | ⟨x, i, beyond, hi, rfl⟩ := family
    · exact ⟨by omega, windowReg_between_caps_and_slots lo hi⟩
    · exact windowReg_reserved_of_slotReg (by omega) (slotReg_between_hlen_and_head _ x (by omega) (by omega))
    · exact windowReg_reserved_of_slotReg (by omega) (slotReg_between_hlen_and_head _ x (by omega) (by omega))
    · rw [Nat.add_assoc]
      exact windowReg_reserved_of_slotReg (by omega) (slotReg_head_beyond_cap x beyond)
  obtain ⟨inside, hreg⟩ := place
  have legal : accessRefusal offset 4 = none := (accessRefusal_eq_none_iff offset 4).2 ⟨rfl, aligned, inside⟩
  exact ⟨memRead_reserved legal hreg, memWrite_reserved v legal hreg⟩

end Sys2Proof.Machine
end

section
/-! PROOFS. The command word: its fields as arithmetic, the words the decoder rejects, and what such a word does
(spec 30_encoding.md R80 to R85, 60_exceptions.md R243). -/

namespace Sys2Proof

/-! ### The fields of a command word (R80) -/

theorem opField_toNat (w : Word32) : (opField w).toNat = w.toNat % 2 ^ 4 := by
  rw [opField, BitVec.extractLsb'_toNat, Nat.shiftRight_zero]

theorem rsvField_eq_zero_iff (w : Word32) : rsvField w = 0 ↔ w.toNat / 2 ^ 5 = 0 := by
  have small : w.toNat / 2 ^ 5 < 2 ^ 27 := by omega
  rw [rsvField, ← BitVec.toNat_inj, BitVec.extractLsb'_toNat, Nat.shiftRight_eq_div_pow, Nat.mod_eq_of_lt small]
  rfl

theorem slotField_eq_a_iff (w : Word32) : slotField w = .a ↔ w.toNat / 2 ^ 4 % 2 = 0 := by
  rw [slotField, BitVec.getLsbD, Nat.testBit_eq_decide_div_mod_eq]
  split <;> simp_all

/-- With RSV = 0 and OP = 0xA only SLOT is open, and SLOT = 1 makes it the one word of R83 c. -/
theorem eq_0x1A_iff {w : Word32} (rsv : w.toNat / 2 ^ 5 = 0) (op : w.toNat % 2 ^ 4 = 0xA) :
    w = 0x0000001A#32 ↔ slotField w ≠ .a := by
  rw [ne_eq, slotField_eq_a_iff]
  bv_omega

/-! ### The decoder's two answers (R83, R85) -/

theorem decodeWord_of_rsvField_ne_zero {w : Word32} (h : rsvField w ≠ 0) :
    decodeWord w = .reject .reservedBits := if_pos h

/-- The three kinds of R83, read off the decoder's tests in their order. -/
theorem exists_decodeWord_eq_reject_iff (w : Word32) : (∃ r, decodeWord w = .reject r) ↔
    w.toNat / 2 ^ 5 ≠ 0 ∨ w.toNat % 2 ^ 4 = 0x0 ∨ 0xB ≤ w.toNat % 2 ^ 4 ∨ w = 0x0000001A#32 := by
  by_cases rsv : rsvField w = 0
  case neg =>
    have high : w.toNat / 2 ^ 5 ≠ 0 := mt (rsvField_eq_zero_iff w).2 rsv
    exact iff_of_true ⟨_, decodeWord_of_rsvField_ne_zero rsv⟩ (.inl high)
  case pos =>
    have low : w.toNat / 2 ^ 5 = 0 := (rsvField_eq_zero_iff w).1 rsv
    rw [decodeWord, if_neg (not_not_intro rsv), opField_toNat]
    split
    -- OP = 0xA: SLOT decides.
    case h_10 op =>
      rw [eq_0x1A_iff low op]
      split <;> simp_all
    -- No OP from 0x1 to 0xA: a reserved opcode.
    case h_11 =>
      simp only [imp_false] at *
      exact iff_of_true ⟨_, rfl⟩ (by omega)
    -- OP from 0x1 to 0x9: a command in either slot.
    all_goals
      simp only [reduceCtorEq, exists_false, false_iff]
      bv_omega

theorem exists_decodeWord_eq_command_iff (w : Word32) :
    (∃ i, decodeWord w = .command i) ↔ ¬ ∃ r, decodeWord w = .reject r := by
  cases decodeWord w with
  | command i => simp
  | reject r => simp

end Sys2Proof

namespace Sys2Proof.Machine

/-! ### An illegal word run (R243) -/

theorem executeCommand_of_reject {w : Word32} {r : DecodeReject} (h : decodeWord w = .reject r) (s : State) :
    executeCommand w s = .next s.raiseIllegal := by
  rw [executeCommand, h]

/-! ### The obligation of 30_encoding.md §2 -/

/-- Settles O3: `exists_decodeWord_eq_reject_iff` is the first clause, and outside its three kinds a word is below
2^5, which leaves the 19 of R82. -/
theorem illegalWordsAreThreeKindsAndOnlySetIll : Obligations.IllegalWordsAreThreeKindsAndOnlySetIll := by
  refine ⟨exists_decodeWord_eq_reject_iff, ?effect, ?legal⟩
  case effect =>
    rintro w s ⟨r, hr⟩
    exact executeCommand_of_reject hr s
  case legal =>
    intro w
    rw [exists_decodeWord_eq_command_iff, exists_decodeWord_eq_reject_iff]
    simp only [List.mem_cons, List.not_mem_nil, or_false]
    bv_omega

end Sys2Proof.Machine
end

section
/-! PROOFS. PACK, UNPACK and MAG, and the canonical representations (spec 40_layout_pack_unpack.md). -/

namespace Sys2Proof.Machine

/-! ### MAG by the shape of the head (R112), and UNPACK beside it (R117) -/

theorem mag_of_head_nil {r : Rep} (h : r.head = []) : mag r = some (base r) := by
  rw [mag, h]

theorem mag_of_head_one {r : Rep} {h0 : Word32} (h : r.head = [h0]) :
    mag r = some (base r + 2 ^ 31 * h0.toNat) := by
  rw [mag, h]

theorem mag_of_head_two {r : Rep} {h0 h1 : Word32} (h : r.head = [h0, h1]) (small : h0.toNat ≤ 1) :
    mag r = some (base r + 2 ^ 31 * h1.toNat + 2 ^ 63 * h0.toNat) := by
  rw [mag, h]
  exact if_neg (by omega)

/-- Where MAG is undefined (R113). -/
theorem mag_eq_none_iff (r : Rep) :
    mag r = none ↔ 2 < r.head.length ∨ (r.head.length = 2 ∧ 1 < (r.head.headD 0).toNat) := by
  obtain ⟨t, _ | ⟨h0, _ | ⟨h1, _ | ⟨h2, rest⟩⟩⟩⟩ := r
  · simp [mag]
  · simp [mag]
  · simp [mag]
  · simp [mag]

/-- The three shapes of head that have a magnitude. -/
theorem mag_cases {r : Rep} {m : Nat} (h : mag r = some m) :
    (r.head = [] ∧ m = base r) ∨ (∃ h0, r.head = [h0] ∧ m = base r + 2 ^ 31 * h0.toNat) ∨
    ∃ h0 h1, r.head = [h0, h1] ∧ h0.toNat ≤ 1 ∧ m = base r + 2 ^ 31 * h1.toNat + 2 ^ 63 * h0.toNat := by
  obtain ⟨t, _ | ⟨h0, _ | ⟨h1, _ | ⟨h2, rest⟩⟩⟩⟩ := r
  · exact .inl ⟨rfl, by simpa [mag] using h.symm⟩
  · exact .inr (.inl ⟨h0, rfl, by simpa [mag] using h.symm⟩)
  · by_cases small : h0.toNat ≤ 1
    · rw [mag_of_head_two rfl small, Option.some.injEq] at h
      exact .inr (.inr ⟨h0, h1, rfl, small, h.symm⟩)
    · simp [mag, Nat.lt_of_not_le small] at h
  · simp [mag] at h

theorem mag_le {r : Rep} {m : Nat} (h : mag r = some m) : m ≤ 2 ^ 64 - 1 := by
  have hb := base_lt r
  obtain ⟨-, rfl⟩ | ⟨h0, -, rfl⟩ | ⟨h0, h1, -, small, rfl⟩ := mag_cases h
  · omega
  · have := h0.isLt; omega
  · have := h1.isLt; omega

/-- UNPACK makes MAG's test of a two-word head the other way round, and adds the limbs in another order. -/
theorem unpack_eq_mag (r : Rep) : unpack r = mag r := by
  obtain ⟨t, _ | ⟨h0, _ | ⟨h1, _ | ⟨h2, rest⟩⟩⟩⟩ := r
  · rfl
  · rfl
  · by_cases small : h0.toNat ≤ 1
    · rw [mag_of_head_two rfl small, unpack]
      simp only [if_pos small, Nat.add_right_comm]
    · simp [unpack, mag, small, Nat.lt_of_not_le small]
  · rfl

/-- UNPACK sees a tail through its low 31 bits only. -/
theorem unpack_congr {r q : Rep} (hb : base r = base q) (hh : r.head = q.head) : unpack r = unpack q := by
  rw [unpack, unpack, hb, hh]

/-! ### The shape of PACK's head (R116) -/

theorem pack_head_cases (sb : Bool) {m : Nat} (h : m < 2 ^ 64) :
    (m < 2 ^ 31 ∧ (pack sb m).head = []) ∨
    (2 ^ 31 ≤ m ∧ m < 2 ^ 63 ∧ (pack sb m).head = [BitVec.ofNat 32 (m / 2 ^ 31)]) ∨
    (2 ^ 63 ≤ m ∧ (pack sb m).head = [1#32, BitVec.ofNat 32 (m / 2 ^ 31 % 2 ^ 32)]) := by
  by_cases empty : m < 2 ^ 31
  · exact .inl ⟨empty, by rw [pack_empty sb empty]⟩
  by_cases oneWord : m < 2 ^ 63
  · exact .inr (.inl ⟨by omega, oneWord, by rw [pack_oneWord sb (by omega) oneWord]⟩)
  · exact .inr (.inr ⟨by omega, by rw [pack_twoWords sb (by omega) h]⟩)

theorem ofNat_div_toNat {m : Nat} (h : m < 2 ^ 63) : (BitVec.ofNat 32 (m / 2 ^ 31)).toNat = m / 2 ^ 31 := by
  rw [BitVec.toNat_ofNat]
  omega

theorem length_pack_head_le (sb : Bool) {m : Nat} (h : m < 2 ^ 64) : (pack sb m).head.length ≤ 2 := by
  obtain ⟨-, hh⟩ | ⟨-, -, hh⟩ | ⟨-, hh⟩ := pack_head_cases sb h
  all_goals simp [hh]

/-- PACK never emits a leading zero head word. -/
theorem pack_head_head?_ne_zero (sb : Bool) {m : Nat} (h : m < 2 ^ 64) : (pack sb m).head.head? ≠ some 0 := by
  obtain ⟨-, hh⟩ | ⟨lo, hi, hh⟩ | ⟨-, hh⟩ := pack_head_cases sb h
  · simp [hh]
  · rw [hh, List.head?_cons, ne_eq, Option.some.injEq, ← BitVec.toNat_inj, ofNat_div_toNat hi]
    have : 1 ≤ m / 2 ^ 31 := by omega
    exact Nat.ne_of_gt this
  · simp [hh]

/-- The last head word holds bits 31 to 62 of the magnitude. -/
theorem getLsbD_31_ofNat_div (m : Nat) : (BitVec.ofNat 32 (m / 2 ^ 31)).getLsbD 31 = m.testBit 62 := by
  rw [BitVec.getLsbD_ofNat, Nat.testBit_div_two_pow]
  simp

/-! ### PACK's magnitude and value -/

/-- The limbs PACK cuts a magnitude into sum to it again. -/
theorem mag_pack (sb : Bool) {m : Nat} (h : m < 2 ^ 64) : mag (pack sb m) = some m := by
  obtain ⟨lo, hh⟩ | ⟨-, hi, hh⟩ | ⟨lo, hh⟩ := pack_head_cases sb h
  · rw [mag_of_head_nil hh, base_pack, Nat.mod_eq_of_lt lo]
  · rw [mag_of_head_one hh, base_pack, ofNat_div_toNat hi, Nat.mod_add_div]
  · rw [mag_of_head_two hh (by decide), base_pack, BitVec.toNat_ofNat, BitVec.toNat_ofNat, Option.some.injEq]
    omega

/-- VAL, whose case for the magnitude 0 is the sum of the other two (R114). -/
theorem val_of_mag {r : Rep} {m : Nat} (h : mag r = some m) :
    val r = some (if sbit r then -(m : Int) else (m : Int)) := by
  rw [val, h]
  cases m with
  | zero => simp
  | succ k => rfl

theorem val_pack_false {m : Nat} (h : m < 2 ^ 64) : val (pack false m) = some (m : Int) := by
  rw [val_of_mag (mag_pack false h), sbit_pack]
  rfl

theorem val_pack_true {m : Nat} (h : m < 2 ^ 64) : val (pack true m) = some (-(m : Int)) := by
  rw [val_of_mag (mag_pack true h), sbit_pack]
  rfl

/-! ### CANON (R118, R120) -/

theorem canon_natCast (n : Nat) : canon n = pack false n := by
  rw [canon, Int.natAbs_natCast, decide_eq_false (by omega)]

theorem canon_neg_natCast {n : Nat} (h : 1 ≤ n) : canon (-(n : Int)) = pack true n := by
  rw [canon, Int.natAbs_neg, Int.natAbs_natCast, decide_eq_true (by omega)]

/-- Every canonical representation is that of its value. -/
theorem exists_val_of_canonical {c : Rep} (h : Canonical c) :
    ∃ n : Int, -2 ^ 63 ≤ n ∧ n ≤ 2 ^ 64 - 1 ∧ val c = some n ∧ canon n = c := by
  obtain ⟨m, hm, rfl⟩ | ⟨m, lo, hi, rfl⟩ := h
  · exact ⟨m, by omega, by omega, val_pack_false hm, canon_natCast m⟩
  · exact ⟨-m, by omega, by omega, val_pack_true (by omega), canon_neg_natCast lo⟩

theorem canon_of_val {c : Rep} {n : Int} (h : Canonical c) (hv : val c = some n) : canon n = c := by
  obtain ⟨k, -, -, hk, rfl⟩ := exists_val_of_canonical h
  obtain rfl : k = n := Option.some.inj (hk.symm.trans hv)
  rfl

/-- CANON is canonical on the whole range, and has the value asked for. -/
theorem canonical_canon {n : Int} (lo : -2 ^ 63 ≤ n) (hi : n ≤ 2 ^ 64 - 1) :
    Canonical (canon n) ∧ val (canon n) = some n := by
  obtain nonneg | neg := le_or_gt 0 n
  · obtain ⟨m, rfl⟩ := Int.eq_ofNat_of_zero_le nonneg
    rw [canon_natCast]
    exact ⟨.inl ⟨m, by omega, rfl⟩, val_pack_false (by omega)⟩
  · obtain ⟨m, rfl⟩ := Int.exists_eq_neg_ofNat neg.le
    rw [canon_neg_natCast (by omega)]
    exact ⟨.inr ⟨m, by omega, by omega, rfl⟩, val_pack_true (by omega)⟩

theorem exists_pack_of_canonical {c : Rep} (h : Canonical c) : ∃ sb m, m < 2 ^ 64 ∧ c = pack sb m := by
  obtain ⟨m, hm, rfl⟩ | ⟨m, -, hm, rfl⟩ := h
  · exact ⟨false, m, hm, rfl⟩
  · exact ⟨true, m, by omega, rfl⟩

/-- There is no canonical negative zero: its value is 0, and CANON(0) has the sign bit clear. -/
theorem not_canonical_negativeZero : ¬ Canonical ⟨0x80000000, []⟩ := by
  intro h
  have hcanon : canon 0 = ⟨0x80000000, []⟩ := canon_of_val h (by decide)
  exact absurd hcanon (by decide)

/-- The first head word is the one that is not zero. -/
theorem exists_head_ne_zero_of_canonical {c : Rep} (h : Canonical c) (hne : c.head ≠ []) : ∃ w ∈ c.head, w ≠ 0 := by
  obtain ⟨sb, m, hm, rfl⟩ := exists_pack_of_canonical h
  refine ⟨_, List.head_mem hne, fun hz => pack_head_head?_ne_zero sb hm ?_⟩
  rw [List.head?_eq_some_head hne, hz]

/-! ### The obligations of 40_layout_pack_unpack.md -/

/-- Settles O18: UNPACK is MAG, and `mag_pack` sums PACK's limbs. -/
theorem unpackUndoesPack : Obligations.UnpackUndoesPack := by
  intro sb m hm
  rw [unpack_eq_mag, mag_pack sb (by omega)]

/-- Settles O19: the three heads of `pack_head_cases`, each under its range of the magnitude. -/
theorem packShapeDependsOnMagnitude : Obligations.PackShapeDependsOnMagnitude := by
  intro sb m hm
  refine ⟨?empty, ?oneWord, ?twoWords, length_pack_head_le sb hm, pack_head_head?_ne_zero sb hm⟩
  case empty =>
    intro hi
    rw [pack_empty sb hi]
  case oneWord =>
    intro lo hi
    refine ⟨BitVec.ofNat 32 (m / 2 ^ 31), by rw [pack_oneWord sb lo hi], ofNat_div_toNat hi, ?_,
      getLsbD_31_ofNat_div m⟩
    rw [ofNat_div_toNat hi]
    omega
  case twoWords =>
    intro lo
    have low32 : BitVec.ofNat 32 (m / 2 ^ 31 % 2 ^ 32) = BitVec.ofNat 32 (m / 2 ^ 31) := by
      apply BitVec.eq_of_toNat_eq
      simp only [BitVec.toNat_ofNat, Nat.mod_mod]
    refine ⟨BitVec.ofNat 32 (m / 2 ^ 31), by rw [pack_twoWords sb lo hm, low32]; rfl, BitVec.toNat_ofNat .., ?_⟩
    exact getLsbD_31_ofNat_div m

/-- Settles O22: UNPACK is MAG, whose sums, bound and undefined cases are those of `mag_cases` and
`mag_eq_none_iff`. -/
theorem unpackIsTheMagnitude : Obligations.UnpackIsTheMagnitude := by
  refine ⟨fun t => ?nil, fun t h0 => ?one, fun t h0 h1 small => ?two, unpack_eq_mag, fun r => ?tooWide,
    fun r m h => ?bound, fun t q h low => ?signBit⟩
  case nil => rw [unpack_eq_mag, mag_of_head_nil rfl, base_eq_mod]
  case one => rw [unpack_eq_mag, mag_of_head_one rfl, base_eq_mod]
  case two => rw [unpack_eq_mag, mag_of_head_two rfl small, base_eq_mod, Nat.add_right_comm]
  case tooWide => rw [unpack_eq_mag, mag_eq_none_iff]
  case bound => exact mag_le (unpack_eq_mag r ▸ h)
  case signBit => exact unpack_congr (by rw [base_eq_mod, base_eq_mod, low]) rfl

/-- Settles O23: `canonical_canon` is existence, `canon_of_val` uniqueness, and a canonical head starts with a
word that is not zero. -/
theorem everyIntegerHasOneCanonicalRepresentation : Obligations.EveryIntegerHasOneCanonicalRepresentation := by
  refine ⟨fun n lo hi => ?one, fun n _ => canon_natCast n, fun n h _ => canon_neg_natCast h,
    fun c => exists_val_of_canonical, not_canonical_negativeZero, fun c => exists_head_ne_zero_of_canonical⟩
  case one =>
    obtain ⟨hcanon, hval⟩ := canonical_canon lo hi
    exact ⟨hcanon, hval, fun c hc hv => (canon_of_val hc hv).symm⟩

end Sys2Proof.Machine
end

section
/-! PROOFS. The four encoders, their commands, and PACK (spec 41_encoders.md R140 to R150). -/

namespace Sys2Proof.Machine

/-! ### How long PACK's head is -/

theorem pack_head_ne_nil_iff (sb : Bool) {m : Nat} (h : m < 2 ^ 64) : (pack sb m).head ≠ [] ↔ 2 ^ 31 ≤ m := by
  obtain ⟨hi, hh⟩ | ⟨lo, -, hh⟩ | ⟨lo, hh⟩ := pack_head_cases sb h
  · exact iff_of_false (by simp [hh]) (by omega)
  · exact iff_of_true (by simp [hh]) lo
  · exact iff_of_true (by simp [hh]) (by omega)

theorem length_pack_head_eq_two_iff (sb : Bool) {m : Nat} (h : m < 2 ^ 64) :
    (pack sb m).head.length = 2 ↔ 2 ^ 63 ≤ m := by
  obtain ⟨hi, hh⟩ | ⟨-, hi, hh⟩ | ⟨lo, hh⟩ := pack_head_cases sb h
  · exact iff_of_false (by simp [hh]) (by omega)
  · exact iff_of_false (by simp [hh]) (by omega)
  · exact iff_of_true (by simp [hh]) lo

theorem length_pack_head_of_oneWord (sb : Bool) {m : Nat} (lo : 2 ^ 31 ≤ m) (hi : m < 2 ^ 63) :
    (pack sb m).head.length = 1 := by
  rw [pack_oneWord sb lo hi, List.length_singleton]

/-! ### Each encoder is CANON on its domain (R149)

CANON(v) is by definition PACK of `v`'s sign and magnitude, and it is the one form all four encoders share. -/

/-- A tail with sign bit 0 is its low 31 bits. -/
theorem signBit_false_tail (k : Nat) : 2 ^ 31 * signBit false + k = k := by
  rw [signBit, if_neg Bool.false_ne_true, Nat.mul_zero, Nat.zero_add]

theorem encI32_eq_canon {v : Int} (lo : -2 ^ 31 ≤ v) (hi : v ≤ 2 ^ 31 - 1) : encI32 v = canon v := by
  by_cases hmin : v = -2 ^ 31
  case pos => subst hmin; decide
  case neg =>
    have small : v.natAbs < 2 ^ 31 := by omega
    rw [encI32, if_neg hmin, canon, pack_empty _ small, Nat.mod_eq_of_lt small]

theorem encU32_eq_pack {v : Nat} (hi : v ≤ 2 ^ 32 - 1) : encU32 v = pack false v := by
  simp only [encU32]
  by_cases small : v < 2 ^ 31
  case pos => rw [pack_empty _ small, if_neg (by omega), signBit_false_tail]
  case neg =>
    have top : v / 2 ^ 31 = 1 := by omega
    rw [pack_oneWord _ (by omega) (by omega), if_pos top, top, signBit_false_tail]
    rfl

theorem encI64_eq_canon {v : Int} (lo : -2 ^ 63 ≤ v) (hi : v ≤ 2 ^ 63 - 1) : encI64 v = canon v := by
  by_cases hmin : v = -2 ^ 63
  case pos => subst hmin; decide
  case neg =>
    simp only [encI64, if_neg hmin, canon]
    by_cases small : v.natAbs < 2 ^ 31
    case pos => rw [pack_empty _ small, if_neg (by omega)]
    case neg => rw [pack_oneWord _ (by omega) (by omega), if_pos (by omega)]

theorem encU64_eq_pack {v : Nat} (hi : v ≤ 2 ^ 64 - 1) : encU64 v = pack false v := by
  simp only [encU64, BitVec.ofNat_eq_ofNat, ← BitVec.toNat_inj, BitVec.toNat_ofNat]
  by_cases small : v < 2 ^ 31
  case pos => rw [pack_empty _ small, if_pos (by omega), signBit_false_tail]
  by_cases oneWord : v < 2 ^ 63
  case pos =>
    have low32 : v / 2 ^ 31 % 2 ^ 32 = v / 2 ^ 31 := by omega
    rw [pack_oneWord _ (by omega) oneWord, if_neg (by omega), if_pos (by omega), low32, signBit_false_tail]
  case neg =>
    have bit32 : v / 2 ^ 31 / 2 ^ 32 % 2 = 1 := by omega
    rw [pack_twoWords _ (by omega) (by omega), if_neg (by omega), if_neg (by omega), bit32, signBit_false_tail]

theorem encU32_eq_canon {v : Nat} (hi : v ≤ 2 ^ 32 - 1) : encU32 v = canon v :=
  (encU32_eq_pack hi).trans (canon_natCast v).symm

theorem encU64_eq_canon {v : Nat} (hi : v ≤ 2 ^ 64 - 1) : encU64 v = canon v :=
  (encU64_eq_pack hi).trans (canon_natCast v).symm

/-! ### The encoder commands (R140)

DATA's native values lie in the encoders' domains, so each command ends by storing a PACK. -/

theorem exec_encI32 (x : Slot) (s : State) :
    exec (.encI32 x) s = finishEncode x (canon (nativeI32 s.data)) s := by
  obtain ⟨lo, hi⟩ := nativeI32_range s.data
  rw [← encI32_eq_canon lo hi]
  rfl

theorem exec_encU32 (x : Slot) (s : State) :
    exec (.encU32 x) s = finishEncode x (pack false (nativeU32 s.data)) s := by
  rw [← encU32_eq_pack (nativeU32_range s.data)]
  rfl

theorem exec_encI64 (x : Slot) (s : State) :
    exec (.encI64 x) s = finishEncode x (canon (nativeI64 s.data)) s := by
  obtain ⟨lo, hi⟩ := nativeI64_range s.data
  rw [← encI64_eq_canon lo hi]
  rfl

theorem exec_encU64 (x : Slot) (s : State) :
    exec (.encU64 x) s = finishEncode x (pack false (nativeU64 s.data)) s := by
  rw [← encU64_eq_pack (nativeU64_range s.data)]
  rfl

/-- Everything an encoder command does to the state: `finishEncode` writes the slot and clears the outcome bits. -/
theorem exec_stores_of_finishEncode {i : Instr} {x : Slot} {r : Rep} {s : State} (h : exec i s = finishEncode x r s) :
    ∃ t, exec i s = .next t ∧ t.readSlot x = r ∧ (t.slot x).hlen = (t.readSlot x).head.length ∧
      (∀ k, (t.slot x).hlen ≤ k → t.headWord x k = 0) ∧ t.slot x.other = s.slot x.other ∧
      { t with slotA := s.slotA, slotB := s.slotB } =
        { s with status := { s.status with ovf := false, neg := false, ill := false } } := by
  refine ⟨_, h, by simp, by simp, fun k hk => ?unusedWords, by simp, ?frame⟩
  case unusedWords =>
    have beyond : r.head.length ≤ k := by simpa using hk
    calc (s.writeSlot x r).succeed.headWord x k
      _ = (s.writeSlot x r).headWord x k := by simp only [State.headWord, State.succeed_slot]
      _ = 0 := by rw [headWord_writeSlot, List.getD_eq_default _ _ beyond]
  case frame => cases x <;> rfl

/-- DATA[31:0] as an unsigned number (R22). -/
theorem nativeU32_eq_mod (d : Word64) : nativeU32 d = d.toNat % 2 ^ 32 := by
  rw [nativeU32, dataLo, BitVec.extractLsb'_toNat, Nat.shiftRight_zero]

/-! ### The obligations of 41_encoders.md -/

/-- Settles O20: every encoder is CANON on its domain; ENC_U64 reaches the canonical representations with sign bit 0
and ENC_I64 those with sign bit 1. -/
theorem encodersEqualPack : Obligations.EncodersEqualPack := by
  refine ⟨fun v => encI32_eq_canon, fun v => encU32_eq_pack, fun v => encI64_eq_canon,
    fun v => encU64_eq_pack, fun r h => ?length, fun r => ⟨fun h => ?reached, fun h => ?canonical⟩⟩
  case length =>
    obtain ⟨sb, m, hm, rfl⟩ := exists_pack_of_canonical h
    exact length_pack_head_le sb hm
  case reached =>
    obtain ⟨m, hm, rfl⟩ | ⟨m, lo, hi, rfl⟩ := h
    · exact .inr (.inr (.inr ⟨m, by omega, (encU64_eq_pack (by omega)).symm⟩))
    · refine .inr (.inr (.inl ⟨-m, by omega, by omega, ?_⟩))
      rw [encI64_eq_canon (by omega) (by omega), canon_neg_natCast lo]
  case canonical =>
    have inRange {n : Int} (lo : -2 ^ 63 ≤ n) (hi : n ≤ 2 ^ 64 - 1) : Canonical (canon n) :=
      (canonical_canon lo hi).1
    obtain ⟨v, lo, hi, rfl⟩ | ⟨v, hi, rfl⟩ | ⟨v, lo, hi, rfl⟩ | ⟨v, hi, rfl⟩ := h
    · exact encI32_eq_canon lo hi ▸ inRange (by omega) (by omega)
    · exact encU32_eq_canon hi ▸ inRange (by omega) (by omega)
    · exact encI64_eq_canon lo hi ▸ inRange (by omega) (by omega)
    · exact encU64_eq_canon hi ▸ inRange (by omega) (by omega)

/-- Settles O21: where two encoders' domains meet, both are CANON. -/
theorem sameIntegerSameRepresentation : Obligations.SameIntegerSameRepresentation := by
  refine ⟨fun v lo hi => ?i32_i64, fun v hi => ?i32_u32, fun v hi => ⟨?u32_u64, ?u32_i64⟩, fun v hi => ?i64_u64,
    by decide, by decide, by decide, by decide⟩
  case i32_i64 => rw [encI32_eq_canon lo hi, encI64_eq_canon (by omega) (by omega)]
  case i32_u32 => rw [encI32_eq_canon (by omega) (by omega), encU32_eq_canon (by omega)]
  case u32_u64 => rw [encU32_eq_canon hi, encU64_eq_canon (by omega)]
  case u32_i64 => rw [encU32_eq_canon hi, encI64_eq_canon (by omega) (by omega)]
  case i64_u64 => rw [encI64_eq_canon (by omega) (by omega), encU64_eq_canon (by omega)]

/-- Settles O29: the command stores PACK of DATA[31:0], whose head is empty below the magnitude 2^31. -/
theorem encI32StoresPackedSigned32 : Obligations.EncI32StoresPackedSigned32 := by
  refine ⟨by decide, by decide, fun s x => ?stores, fun v lo hi => ⟨encI32_eq_canon lo hi, ?head⟩,
    by decide, by decide, by decide, by decide, by decide⟩
  case stores => exact exec_stores_of_finishEncode (exec_encI32 x s)
  case head =>
    rw [encI32_eq_canon lo hi, canon, pack_head_ne_nil_iff _ (by omega)]
    omega

/-- Settles O30: the command stores PACK of DATA[31:0] with sign bit 0. -/
theorem encU32StoresPackedUnsigned32 : Obligations.EncU32StoresPackedUnsigned32 := by
  refine ⟨by decide, by decide, fun s x => ?stores, fun v hi => ⟨encU32_eq_pack hi, ?signBit⟩,
    by decide, by decide, by decide, by decide⟩
  case stores =>
    rw [← nativeU32_eq_mod]
    exact exec_stores_of_finishEncode (exec_encU32 x s)
  case signBit =>
    rw [encU32_eq_pack hi]
    exact sbit_pack false v

/-- Settles O31: the command stores PACK of DATA, and a magnitude of 2^63 or more, which takes two head words, is that
of -2^63 only. -/
theorem encI64StoresPackedSigned64 : Obligations.EncI64StoresPackedSigned64 := by
  refine ⟨by decide, by decide, fun s x => ?stores, fun v lo hi => ⟨encI64_eq_canon lo hi, ?twoWords, ?oneWord⟩,
    by decide, by decide, by decide, by decide, by decide, by decide, by decide, by decide⟩
  case stores => exact exec_stores_of_finishEncode (exec_encI64 x s)
  case twoWords =>
    rw [encI64_eq_canon lo hi, canon, length_pack_head_eq_two_iff _ (by omega)]
    omega
  case oneWord =>
    intro hne large
    rw [encI64_eq_canon lo hi]
    exact length_pack_head_of_oneWord _ large (by omega)

/-- Settles O32: the command stores PACK of DATA with sign bit 0. -/
theorem encU64StoresPackedUnsigned64 : Obligations.EncU64StoresPackedUnsigned64 := by
  refine ⟨by decide, by decide, fun s x => ?stores, fun v hi => ⟨encU64_eq_pack hi, ?signBit⟩,
    by decide, by decide, by decide, by decide, by decide, by decide⟩
  case stores => exact exec_stores_of_finishEncode (exec_encU64 x s)
  case signBit =>
    rw [encU64_eq_pack hi]
    exact sbit_pack false v

end Sys2Proof.Machine
end

section
/-! PROOFS. The two zero tests, the sign test on canonical representations, and SGN (spec 42_sign.md R170 to R174). -/

namespace Sys2Proof.Machine

/-! ### Where the two zero tests differ (R173) -/

/-- CODED is the stricter test, so they differ where FULL accepts a non-empty head. -/
theorem isZero_full_ne_coded_iff (r : Rep) :
    isZero .full r ≠ isZero .coded r ↔ r.tail.toNat % 2 ^ 31 = 0 ∧ r.head ≠ [] ∧ ∀ h ∈ r.head, h = 0 := by
  rw [ne_eq, Bool.eq_iff_iff, isZero_full_iff, isZero_coded_iff]
  by_cases empty : r.head = []
  · simp [empty]
  · simp [empty]

theorem signOf_eq_zero_iff (z : SignZeroTest) (r : Rep) : signOf z r = .zero ↔ isZero z r = true := by
  obtain ⟨hz, hs⟩ | ⟨hz, -, hs⟩ | ⟨hz, -, hs⟩ := signOf_cases z r
  · simp [hz, hs]
  · simp [hz, hs]
  · simp [hz, hs]

/-- Only the zero test in SIGNOF looks at the setting. -/
theorem signOf_eq_signOf_iff (y z : SignZeroTest) (r : Rep) :
    signOf y r = signOf z r ↔ isZero y r = isZero z r := by
  constructor
  · intro h
    rw [Bool.eq_iff_iff, ← signOf_eq_zero_iff, ← signOf_eq_zero_iff, h]
  · intro h
    rw [signOf, signOf, h]

/-! ### Canonical representations -/

theorem isZero_iff_of_head_nil (z : SignZeroTest) {r : Rep} (h : r.head = []) : isZero z r = true ↔ base r = 0 := by
  rw [base_eq_mod]
  cases z
  case full => simp [isZero_full_iff, h]
  case coded => simp [isZero_coded_iff, h]

/-- A head word that is not zero fails both tests. -/
theorem not_isZero_of_head_ne_zero (z : SignZeroTest) {r : Rep} (h : ∃ w ∈ r.head, w ≠ 0) : ¬ isZero z r = true := by
  obtain ⟨w, hw, hne⟩ := h
  cases z
  case full => exact fun hz => hne (((isZero_full_iff r).1 hz).2 w hw)
  case coded => exact fun hz => List.ne_nil_of_mem hw ((isZero_coded_iff r).1 hz).2

theorem isZero_full_eq_coded_of_canonical {c : Rep} (h : Canonical c) : isZero .full c = isZero .coded c := by
  by_contra differ
  obtain ⟨-, hne, allZero⟩ := (isZero_full_ne_coded_iff c).1 differ
  obtain ⟨w, hw, hw0⟩ := exists_head_ne_zero_of_canonical h hne
  exact hw0 (allZero w hw)

theorem le_mag_of_canonical {c : Rep} {m : Nat} (h : Canonical c) (hm : mag c = some m) (hne : c.head ≠ []) :
    2 ^ 31 ≤ m := by
  obtain ⟨sb, k, hk, rfl⟩ := exists_pack_of_canonical h
  obtain rfl : k = m := Option.some.inj ((mag_pack sb hk).symm.trans hm)
  exact (pack_head_ne_nil_iff sb hk).1 hne

/-- On a canonical representation either zero test is the test of the magnitude. -/
theorem isZero_iff_of_canonical (z : SignZeroTest) {c : Rep} {m : Nat} (h : Canonical c) (hm : mag c = some m) :
    isZero z c = true ↔ m = 0 := by
  by_cases empty : c.head = []
  case pos =>
    obtain rfl : base c = m := Option.some.inj ((mag_of_head_nil empty).symm.trans hm)
    exact isZero_iff_of_head_nil z empty
  case neg =>
    have large := le_mag_of_canonical h hm empty
    exact iff_of_false (not_isZero_of_head_ne_zero z (exists_head_ne_zero_of_canonical h empty)) (by omega)

/-- SIGNOF of a canonical representation is the sign of its value, which is 0, `-m` or `m` by the zero test and the
sign bit. -/
theorem signInt_signOf_of_canonical (z : SignZeroTest) {c : Rep} {n : Int} (h : Canonical c) (hv : val c = some n) :
    signInt (signOf z c) = n.sign := by
  obtain ⟨sb, m, hm64, rfl⟩ := exists_pack_of_canonical h
  have hm := mag_pack sb hm64
  have zero_iff := isZero_iff_of_canonical z h hm
  obtain rfl := Option.some.inj ((val_of_mag hm).symm.trans hv)
  obtain ⟨hz, hs⟩ | ⟨hz, hb, hs⟩ | ⟨hz, hb, hs⟩ := signOf_cases z (pack sb m)
  · rw [hs, zero_iff.1 hz]
    simp [signInt]
  · have nonzero : m ≠ 0 := by simpa [hz] using zero_iff
    rw [hs, if_pos hb, Int.sign_neg, Int.sign_natCast_of_ne_zero nonzero, signInt]
  · have nonzero : m ≠ 0 := by simpa [hz] using zero_iff
    rw [hs, hb, if_neg Bool.false_ne_true, Int.sign_natCast_of_ne_zero nonzero, signInt]

theorem signInt_signOf_canon (z : SignZeroTest) {n : Int} (lo : -2 ^ 63 ≤ n) (hi : n ≤ 2 ^ 64 - 1) :
    signInt (signOf z (canon n)) = n.sign := by
  obtain ⟨hcanon, hval⟩ := canonical_canon lo hi
  exact signInt_signOf_of_canonical z hcanon hval

/-! ### SGN (R172) -/

/-- SGN always completes, with the code of the slot's sign in STATUS.SGN and the outcome bits clear. -/
theorem exec_sgn (x : Slot) (s : State) :
    exec (.sgn x) s = .next { s with
      status := { s.status with
        ovf := false, neg := false, ill := false
        sgn := signCode (signOf s.params.signZeroTest (s.readSlot x)) } } := rfl

/-- The codes of R33, by the zero test and tail bit 31. -/
theorem signCode_signOf (z : SignZeroTest) (r : Rep) :
    signCode (signOf z r) = if isZero z r then 0b00#2 else if r.tail.getLsbD 31 then 0b11#2 else 0b01#2 := by
  rw [signOf, sbit]
  split
  · rfl
  · split <;> rfl

/-! ### The obligations of 42_sign.md -/

/-- Settles O24: a canonical head that is not empty has a word that is not zero, which fails both tests; the sign is
that of the value since the tests are those of the magnitude. -/
theorem zeroTestsAgreeOnCanonical : Obligations.ZeroTestsAgreeOnCanonical := by
  refine ⟨fun c h => ?agree, fun c m h hm hne => ?large, fun z c n => signInt_signOf_of_canonical z, fun r => ?differ⟩
  case agree =>
    have tests := isZero_full_eq_coded_of_canonical h
    exact ⟨tests, (signOf_eq_signOf_iff _ _ c).2 tests⟩
  case large => exact ⟨le_mag_of_canonical h hm hne, exists_head_ne_zero_of_canonical h hne⟩
  case differ =>
    have tests := isZero_full_ne_coded_iff r
    exact ⟨tests, (signOf_eq_signOf_iff _ _ r).not.trans tests⟩

/-- Settles O25: every encoder is CANON on its domain, and CANON(n) has the sign of `n`. -/
theorem signOfEncodedIsSignOfValue : Obligations.SignOfEncodedIsSignOfValue := by
  refine fun z => ⟨fun v lo hi => ?i32, fun v hi => ?u32, fun v lo hi => ?i64, fun v hi => ?u64⟩
  case i32 => rw [encI32_eq_canon lo hi, signInt_signOf_canon z (by omega) (by omega)]
  case u32 => rw [encU32_eq_canon hi, signInt_signOf_canon z (by omega) (by omega)]
  case i64 => rw [encI64_eq_canon lo hi, signInt_signOf_canon z lo (by omega)]
  case u64 => rw [encU64_eq_canon hi, signInt_signOf_canon z (by omega) (by omega)]

/-- Settles O39: under either setting the Bool of the statement is the zero test, so its code is that of SIGNOF. -/
theorem sgnReportsTheSign : Obligations.SgnReportsTheSign := by
  refine ⟨by decide, by decide, fun s x zero full coded => ?reports, fun z => ?negativeZero, by decide, by decide,
    by decide, by decide, fun z => ?negative, fun z => ?positive, fun z => ?minusOne⟩
  case reports =>
    have isTest : zero = isZero s.params.signZeroTest (s.readSlot x) := by
      rw [Bool.eq_iff_iff]
      cases setting : s.params.signZeroTest
      case full => rw [full setting, isZero_full_iff]
      case coded => rw [coded setting, isZero_coded_iff]
    rw [exec_sgn, signCode_signOf, isTest]
  case negativeZero => cases z <;> decide
  case negative => cases z <;> decide
  case positive => cases z <;> decide
  case minusOne => cases z <;> decide

end Sys2Proof.Machine
end

section
/-! PROOFS. The four decoders: what each answers, their commands, and the range check on canonical representations
(spec 43_decoders.md R180 to R191). -/

namespace Sys2Proof.Machine

/-! ### Sign times magnitude is the value

The signed decoders multiply a magnitude by SIGNOF, where VAL looks at the sign bit alone; the two differ only where
the zero test holds, and there the magnitude is 0. -/

theorem mag_eq_zero_of_isZero {z : SignZeroTest} {r : Rep} {m : Nat} (hz : isZero z r = true)
    (hm : mag r = some m) : m = 0 := by
  have hb := base_of_isZero hz
  have words : ∀ w ∈ r.head, w = 0 := by
    cases z
    case full => exact ((isZero_full_iff r).1 hz).2
    case coded => simp [((isZero_coded_iff r).1 hz).2]
  obtain ⟨-, rfl⟩ | ⟨h0, hh, rfl⟩ | ⟨h0, h1, hh, -, rfl⟩ := mag_cases hm
  · exact hb
  · simp [hb, words h0 (by simp [hh])]
  · simp [hb, words h0 (by simp [hh]), words h1 (by simp [hh])]

theorem mag_mul_signInt_signOf (z : SignZeroTest) {r : Rep} {m : Nat} {n : Int} (hm : mag r = some m)
    (hv : val r = some n) : (m : Int) * signInt (signOf z r) = n := by
  obtain rfl := Option.some.inj ((val_of_mag hm).symm.trans hv)
  obtain ⟨hz, hs⟩ | ⟨-, hb, hs⟩ | ⟨-, hb, hs⟩ := signOf_cases z r
  · simp [mag_eq_zero_of_isZero hz hm]
  · simp [hs, hb, signInt]
  · simp [hs, hb, signInt]

/-! ### What each decoder answers (R181, R183, R185, R187) -/

theorem decI32_of_head_nil (z : SignZeroTest) {r : Rep} {n : Int} (hh : r.head = []) (hv : val r = some n) :
    decI32 z r = .ok n := by
  rw [← mag_mul_signInt_signOf z (mag_of_head_nil hh) hv, decI32, hh]

theorem decI32_min (z : SignZeroTest) : decI32 z ⟨0x80000000, [0x00000001]⟩ = .ok (-2 ^ 31) := rfl

theorem decI32_overflow (z : SignZeroTest) {r : Rep} (hne : r.head ≠ [])
    (hmin : r ≠ ⟨0x80000000, [0x00000001]⟩) : decI32 z r = .ovf .mag := by
  obtain ⟨t, _ | ⟨h0, _ | ⟨h1, rest⟩⟩⟩ := r
  · exact absurd rfl hne
  · refine if_neg fun ⟨one, tail⟩ => hmin ?_
    obtain rfl : h0 = 1 := BitVec.eq_of_toNat_eq one
    exact congrArg (Rep.mk · [1]) tail
  · rfl

/-- The sign test comes first, whatever the head. -/
theorem decU32_of_neg {z : SignZeroTest} {r : Rep} (hs : signOf z r = .neg) : decU32 z r = .ovf .neg := if_pos hs

/-- A head of at most one word overflows where the magnitude needs more than 32 bits. -/
theorem decU32_of_length_le_one {z : SignZeroTest} {r : Rep} {m : Nat} (hs : signOf z r ≠ .neg)
    (hl : r.head.length ≤ 1) (hm : mag r = some m) : decU32 z r = if m < 2 ^ 32 then .ok m else .ovf .mag := by
  have hb := base_lt r
  rw [decU32, if_neg hs]
  obtain ⟨hh, rfl⟩ | ⟨h0, hh, rfl⟩ | ⟨h0, h1, hh, -⟩ := mag_cases hm
  · rw [hh, if_pos (by omega)]
  · simp only [hh]
    by_cases small : 1 < h0.toNat
    · rw [if_pos small, if_neg (by omega)]
    · rw [if_neg small, if_pos (by omega)]
      push_cast
      rfl
  · simp [hh] at hl

theorem decU32_of_two_le_length {z : SignZeroTest} {r : Rep} (hs : signOf z r ≠ .neg) (hl : 2 ≤ r.head.length) :
    decU32 z r = .ovf .mag := by
  rw [decU32, if_neg hs]
  obtain ⟨t, _ | ⟨h0, _ | ⟨h1, rest⟩⟩⟩ := r
  · simp at hl
  · simp at hl
  · rfl

theorem decI64_of_length_le_one (z : SignZeroTest) {r : Rep} {n : Int} (hl : r.head.length ≤ 1)
    (hv : val r = some n) : decI64 z r = .ok n := by
  obtain ⟨t, _ | ⟨h0, _ | ⟨h1, rest⟩⟩⟩ := r
  · rw [← mag_mul_signInt_signOf z (mag_of_head_nil rfl) hv]
    rfl
  · rw [← mag_mul_signInt_signOf z (mag_of_head_one rfl) hv]
    push_cast
    rfl
  · simp at hl

theorem decI64_min (z : SignZeroTest) : decI64 z ⟨0x80000000, [0x00000001, 0x00000000]⟩ = .ok (-2 ^ 63) := rfl

theorem decI64_overflow (z : SignZeroTest) {r : Rep} (hl : 2 ≤ r.head.length)
    (hmin : r ≠ ⟨0x80000000, [0x00000001, 0x00000000]⟩) : decI64 z r = .ovf .mag := by
  obtain ⟨t, _ | ⟨h0, _ | ⟨h1, _ | ⟨h2, rest⟩⟩⟩⟩ := r
  · simp at hl
  · simp at hl
  · refine if_neg fun ⟨one, zero, tail⟩ => hmin ?_
    obtain rfl : h0 = 1 := BitVec.eq_of_toNat_eq one
    obtain rfl : h1 = 0 := BitVec.eq_of_toNat_eq zero
    exact congrArg (Rep.mk · [1, 0]) tail
  · rfl

theorem decU64_of_neg {z : SignZeroTest} {r : Rep} (hs : signOf z r = .neg) : decU64 z r = .ovf .neg := if_pos hs

theorem decU64_of_mag {z : SignZeroTest} {r : Rep} {m : Nat} (hs : signOf z r ≠ .neg) (hm : mag r = some m) :
    decU64 z r = .ok m := by
  rw [decU64, if_neg hs, unpack_eq_mag, hm]

theorem decU64_overflow {z : SignZeroTest} {r : Rep} (hs : signOf z r ≠ .neg) (hm : mag r = none) :
    decU64 z r = .ovf .mag := by
  rw [decU64, if_neg hs, unpack_eq_mag, hm]

/-! ### The decoder commands (R180)

Each command is `finishDecode`, which has three outcomes: DATA written, Overflow(MAG), Overflow(NEG). -/

theorem exec_decI32 (x : Slot) (s : State) :
    exec (.decI32 x) s = finishDecode sext64 (decI32 s.params.signZeroTest (s.readSlot x)) s := rfl

theorem exec_decU32 (x : Slot) (s : State) :
    exec (.decU32 x) s = finishDecode zext64 (decU32 s.params.signZeroTest (s.readSlot x)) s := rfl

theorem exec_decI64 (x : Slot) (s : State) :
    exec (.decI64 x) s = finishDecode bv64 (decI64 s.params.signZeroTest (s.readSlot x)) s := rfl

theorem exec_decU64 (x : Slot) (s : State) :
    exec (.decU64 x) s = finishDecode bv64 (decU64 s.params.signZeroTest (s.readSlot x)) s := rfl

theorem finishDecode_ok (toData : Int → Word64) (k : Int) (s : State) :
    finishDecode toData (.ok k) s = .next { s with
      data := toData k
      status := { s.status with ovf := false, neg := false, ill := false } } := rfl

theorem finishDecode_mag (toData : Int → Word64) (s : State) :
    finishDecode toData (.ovf .mag) s = .next { s with
      status := { s.status with ovf := true, neg := false, ill := false } } := rfl

theorem finishDecode_neg (toData : Int → Word64) (s : State) :
    finishDecode toData (.ovf .neg) s = .next { s with
      status := { s.status with ovf := true, neg := true, ill := false } } := rfl

/-! ### Canonical representations by their value -/

theorem val_range_of_canonical {c : Rep} {n : Int} (h : Canonical c) (hv : val c = some n) :
    -2 ^ 63 ≤ n ∧ n ≤ 2 ^ 64 - 1 := by
  obtain ⟨k, lo, hi, hk, -⟩ := exists_val_of_canonical h
  obtain rfl : k = n := Option.some.inj (hk.symm.trans hv)
  exact ⟨lo, hi⟩

/-- A canonical representation is PACK of its value's sign and magnitude, and the magnitude has at most 64 bits. -/
theorem eq_pack_of_canonical {c : Rep} {n : Int} (h : Canonical c) (hv : val c = some n) :
    c = pack (decide (n < 0)) n.natAbs ∧ n.natAbs < 2 ^ 64 := by
  obtain ⟨lo, hi⟩ := val_range_of_canonical h hv
  exact ⟨(canon_of_val h hv).symm, by omega⟩

theorem mag_of_canonical {c : Rep} {n : Int} (h : Canonical c) (hv : val c = some n) : mag c = some n.natAbs := by
  obtain ⟨hc, hi⟩ := eq_pack_of_canonical h hv
  rw [hc, mag_pack _ hi]

theorem head_ne_nil_iff_of_canonical {c : Rep} {n : Int} (h : Canonical c) (hv : val c = some n) :
    c.head ≠ [] ↔ 2 ^ 31 ≤ n.natAbs := by
  obtain ⟨hc, hi⟩ := eq_pack_of_canonical h hv
  rw [hc, pack_head_ne_nil_iff _ hi]

theorem two_le_length_head_iff_of_canonical {c : Rep} {n : Int} (h : Canonical c) (hv : val c = some n) :
    2 ≤ c.head.length ↔ 2 ^ 63 ≤ n.natAbs := by
  obtain ⟨hc, hi⟩ := eq_pack_of_canonical h hv
  have hl := length_pack_head_le (decide (n < 0)) hi
  rw [hc, ← length_pack_head_eq_two_iff (decide (n < 0)) hi]
  omega

theorem eq_iff_val_of_canonical {c d : Rep} {n k : Int} (hc : Canonical c) (hv : val c = some n)
    (hd : canon k = d) (hk : val d = some k) : c = d ↔ n = k := by
  constructor
  · rintro rfl
    exact Option.some.inj (hv.symm.trans hk)
  · rintro rfl
    exact (canon_of_val hc hv).symm.trans hd

theorem signOf_eq_neg_iff_of_canonical (z : SignZeroTest) {c : Rep} {n : Int} (h : Canonical c)
    (hv : val c = some n) : signOf z c = .neg ↔ n < 0 := by
  rw [← Int.sign_eq_neg_one_iff_neg, ← signInt_signOf_of_canonical z h hv]
  cases signOf z c <;> decide

/-! ### The range checks (R189)

On a canonical representation the length of the head bounds the value's magnitude, and the one value of a target's
range that takes a longer head is the least one of a signed target. -/

theorem decI32_of_canonical (z : SignZeroTest) {c : Rep} {n : Int} (h : Canonical c) (hv : val c = some n) :
    decI32 z c = if -2 ^ 31 ≤ n ∧ n ≤ 2 ^ 31 - 1 then .ok n else .ovf .mag := by
  have head_iff := head_ne_nil_iff_of_canonical h hv
  have min_iff := eq_iff_val_of_canonical h hv (d := ⟨0x80000000, [0x00000001]⟩) (k := -2 ^ 31)
    (by decide) (by decide)
  by_cases empty : c.head = []
  case pos =>
    have small : ¬ 2 ^ 31 ≤ n.natAbs := fun large => head_iff.2 large empty
    rw [decI32_of_head_nil z empty hv, if_pos (by omega)]
  case neg =>
    have large := head_iff.1 empty
    by_cases least : n = -2 ^ 31
    case pos => rw [min_iff.2 least, decI32_min, least, if_pos (by decide)]
    case neg => rw [decI32_overflow z empty (least ∘ min_iff.1), if_neg (by omega)]

theorem decU32_of_canonical (z : SignZeroTest) {c : Rep} {n : Int} (h : Canonical c) (hv : val c = some n) :
    decU32 z c =
      if 0 ≤ n ∧ n ≤ 2 ^ 32 - 1 then .ok n else if n < 0 then .ovf .neg else .ovf .mag := by
  have neg_iff := signOf_eq_neg_iff_of_canonical z h hv
  have length_iff := two_le_length_head_iff_of_canonical h hv
  by_cases neg : n < 0
  case pos => rw [decU32_of_neg (neg_iff.2 neg), if_neg (by omega), if_pos neg]
  case neg =>
    have hs := neg_iff.not.2 neg
    by_cases long : 2 ≤ c.head.length
    case pos =>
      have := length_iff.1 long
      rw [decU32_of_two_le_length hs long, if_neg (by omega), if_neg neg]
    case neg =>
      rw [decU32_of_length_le_one hs (by omega) (mag_of_canonical h hv), if_neg neg, Int.natAbs_of_nonneg (by omega)]
      exact if_congr (by omega) rfl rfl

theorem decI64_of_canonical (z : SignZeroTest) {c : Rep} {n : Int} (h : Canonical c) (hv : val c = some n) :
    decI64 z c = if -2 ^ 63 ≤ n ∧ n ≤ 2 ^ 63 - 1 then .ok n else .ovf .mag := by
  have length_iff := two_le_length_head_iff_of_canonical h hv
  have min_iff := eq_iff_val_of_canonical h hv (d := ⟨0x80000000, [0x00000001, 0x00000000]⟩) (k := -2 ^ 63)
    (by decide) (by decide)
  by_cases long : 2 ≤ c.head.length
  case pos =>
    have large := length_iff.1 long
    by_cases least : n = -2 ^ 63
    case pos => rw [min_iff.2 least, decI64_min, least, if_pos (by decide)]
    case neg => rw [decI64_overflow z long (least ∘ min_iff.1), if_neg (by omega)]
  case neg =>
    have small := length_iff.not.1 long
    rw [decI64_of_length_le_one z (by omega) hv, if_pos (by omega)]

/-- No canonical magnitude is too wide for the target, so only the sign can overflow. -/
theorem decU64_of_canonical (z : SignZeroTest) {c : Rep} {n : Int} (h : Canonical c) (hv : val c = some n) :
    decU64 z c =
      if 0 ≤ n ∧ n ≤ 2 ^ 64 - 1 then .ok n else if n < 0 then .ovf .neg else .ovf .mag := by
  have neg_iff := signOf_eq_neg_iff_of_canonical z h hv
  have range := val_range_of_canonical h hv
  by_cases neg : n < 0
  case pos => rw [decU64_of_neg (neg_iff.2 neg), if_neg (by omega), if_pos neg]
  case neg =>
    rw [decU64_of_mag (neg_iff.not.2 neg) (mag_of_canonical h hv), Int.natAbs_of_nonneg (by omega),
      if_pos (by omega)]

/-! ### The obligations of 43_decoders.md -/

/-- Settles O26: the four range checks above. -/
theorem decodersRangeCheckCanonicalValues : Obligations.DecodersRangeCheckCanonicalValues :=
  fun z _ _ h hv => ⟨decI32_of_canonical z h hv, decU32_of_canonical z h hv, decI64_of_canonical z h hv,
    decU64_of_canonical z h hv⟩

/-- Settles O27: an encoder's output is CANON of its input, whose value is in the decoder's range. -/
theorem roundTripsAndBoundaries : Obligations.RoundTripsAndBoundaries := by
  refine fun z => ⟨fun v lo hi => ?i32, fun v hi => ?u32, fun v lo hi => ?i64, fun v hi => ?u64, ?boundaries⟩
  case i32 =>
    obtain ⟨hc, hv⟩ := canonical_canon (n := v) (by omega) (by omega)
    rw [encI32_eq_canon lo hi, decI32_of_canonical z hc hv, if_pos ⟨lo, hi⟩]
  case u32 =>
    obtain ⟨hc, hv⟩ := canonical_canon (n := v) (by omega) (by omega)
    rw [encU32_eq_canon hi, decU32_of_canonical z hc hv, if_pos (by omega)]
  case i64 =>
    obtain ⟨hc, hv⟩ := canonical_canon (n := v) lo (by omega)
    rw [encI64_eq_canon lo hi, decI64_of_canonical z hc hv, if_pos ⟨lo, hi⟩]
  case u64 =>
    obtain ⟨hc, hv⟩ := canonical_canon (n := v) (by omega) (by omega)
    rw [encU64_eq_canon hi, decU64_of_canonical z hc hv, if_pos (by omega)]
  case boundaries => cases z <;> decide

/-- Settles O34: an empty head gives the value, which fits 32 bits, and a longer head overflows unless it is the
representation of -2^31. -/
theorem decI32DecodesOrOverflows : Obligations.DecI32DecodesOrOverflows := by
  refine ⟨by decide, by decide, fun s x => ⟨fun empty => ?value, fun least => ?min, fun hne hmin => ?overflow⟩,
    fun z => ?corners⟩
  case value =>
    have hb := base_lt (s.readSlot x)
    rw [exec_decI32, decI32_of_head_nil _ empty (val_of_mag (mag_of_head_nil empty)), finishDecode_ok,
      sext64_of_range (by split <;> omega) (by split <;> omega)]
  case min =>
    rw [exec_decI32, least, decI32_min, finishDecode_ok]
    rfl
  case overflow => rw [exec_decI32, decI32_overflow _ hne hmin, finishDecode_mag]
  case corners =>
    have long (r : Rep) (hl : 2 ≤ r.head.length) : decI32 z r = .ovf .mag :=
      decI32_overflow z (fun h => by simp [h] at hl) (fun h => by simp [h] at hl)
    cases z <;>
      exact ⟨by decide, by decide, by decide, by decide, by decide, by decide, by decide, by decide, by decide,
        long⟩

/-- Settles O35: the sign test first; then a head of at most one word is decided by its magnitude, which is below 2^32
exactly when the word is 0 or 1. -/
theorem decU32DecodesOrOverflows : Obligations.DecU32DecodesOrOverflows := by
  refine ⟨by decide, by decide, fun s x => ⟨fun hs => ?neg, fun hs wide => ?mag, fun hs empty => ?noWord,
    fun h0 hs one small => ?oneWord⟩, fun z => ?corners, by decide, by decide⟩
  case neg => rw [exec_decU32, decU32_of_neg hs, finishDecode_neg]
  case mag =>
    obtain long | ⟨h0, one, large⟩ := wide
    · rw [exec_decU32, decU32_of_two_le_length hs long, finishDecode_mag]
    · rw [exec_decU32, decU32_of_length_le_one hs (by simp [one]) (mag_of_head_one one), if_neg (by omega),
        finishDecode_mag]
  case noWord =>
    have small : base (s.readSlot x) < 2 ^ 32 := (base_lt _).trans (by decide)
    rw [exec_decU32, decU32_of_length_le_one hs (by simp [empty]) (mag_of_head_nil empty), if_pos small,
      finishDecode_ok, zext64_of_range small]
  case oneWord =>
    have hb := base_lt (s.readSlot x)
    have fits : base (s.readSlot x) + 2 ^ 31 * h0.toNat < 2 ^ 32 := by omega
    rw [exec_decU32, decU32_of_length_le_one hs (by simp [one]) (mag_of_head_one one), if_pos fits,
      finishDecode_ok, zext64_of_range fits]
  case corners => cases z <;> decide

/-- Settles O36: a head of at most one word gives the value, and a longer head overflows unless it is the
representation of -2^63. -/
theorem decI64DecodesOrOverflows : Obligations.DecI64DecodesOrOverflows := by
  refine ⟨by decide, by decide, fun s x => ⟨fun m hl hm => ?value, fun least => ?min, fun hl hmin => ?overflow⟩,
    fun z => ?corners⟩
  case value => rw [exec_decI64, decI64_of_length_le_one _ hl (val_of_mag hm), finishDecode_ok, bv64]
  case min =>
    rw [exec_decI64, least, decI64_min, finishDecode_ok]
    rfl
  case overflow => rw [exec_decI64, decI64_overflow _ hl hmin, finishDecode_mag]
  case corners =>
    have long (r : Rep) (hl : r.head.length = 3) : decI64 z r = .ovf .mag :=
      decI64_overflow z (by omega) (fun h => by simp [h] at hl)
    cases z <;>
      exact ⟨by decide, by decide, by decide, by decide, by decide, by decide, by decide, by decide, long⟩

/-- Settles O37: the sign test first; then UNPACK, whose TOO_WIDE is where MAG is undefined. -/
theorem decU64DecodesOrOverflows : Obligations.DecU64DecodesOrOverflows := by
  refine ⟨by decide, by decide, fun s x => ⟨fun hs => ?neg, fun hs wide => ?mag, fun m hs hm => ?value⟩,
    fun z => ?corners, by decide, by decide⟩
  case neg => rw [exec_decU64, decU64_of_neg hs, finishDecode_neg]
  case mag =>
    have tooWide : mag (s.readSlot x) = none := by
      rw [mag_eq_none_iff]
      obtain long | ⟨h0, h1, two, large⟩ := wide
      · exact .inl long
      · exact .inr (by simpa [two] using large)
    rw [exec_decU64, decU64_overflow hs tooWide, finishDecode_mag]
  case value => rw [exec_decU64, decU64_of_mag hs hm, finishDecode_ok, bv64_natCast]
  case corners => cases z <;> decide

end Sys2Proof.Machine
end

section
/-! PROOFS. Equality of representations, and EQ (spec 44_equality.md R220 to R222). -/

namespace Sys2Proof.Machine

/-! ### Equality of representations (R220, R222) -/

/-- The structural rule of R220: all 32 bits of the tail and every head word. -/
theorem eqRep_eq_true_iff_fields (r q : Rep) : eqRep r q = true ↔ r.tail = q.tail ∧ r.head = q.head := by
  obtain ⟨rt, rh⟩ := r
  obtain ⟨qt, qh⟩ := q
  rw [eqRep_eq_true_iff, Rep.mk.injEq]

theorem eqRep_eq_decide_fields (r q : Rep) : eqRep r q = decide (r.tail = q.tail ∧ r.head = q.head) := by
  rw [Bool.eq_iff_iff, eqRep_eq_true_iff_fields, decide_eq_true_iff]

theorem eq_iff_val_eq_of_canonical {r q : Rep} (hr : Canonical r) (hq : Canonical q) : r = q ↔ val r = val q := by
  obtain ⟨n, -, -, hn, -⟩ := exists_val_of_canonical hr
  obtain ⟨k, -, -, hk, canon_k⟩ := exists_val_of_canonical hq
  rw [hn, hk, Option.some.injEq]
  exact eq_iff_val_of_canonical hr hn canon_k hk

/-! ### EQ (R221) -/

/-- EQ always completes, with the comparison of the two slots in STATUS.EQ and the outcome bits clear. -/
theorem exec_eq (s : State) :
    exec .eq s = .next { s with
      status := { s.status with
        ovf := false, neg := false, ill := false
        eq := eqRep (s.readSlot .a) (s.readSlot .b) } } := rfl

/-- A head register at or beyond HLEN is no part of what the slot holds (R25). -/
theorem readSlot_set_head_of_hlen_le (s : State) (x : Slot) {i : Nat} (v : Word32) (h : (s.slot x).hlen ≤ i) :
    (s.setSlot x { s.slot x with head := (s.slot x).head.set i v }).readSlot x = s.readSlot x := by
  simp only [State.readSlot, State.setSlot_slot, List.take_set_of_le h]

/-! ### The obligations of 44_equality.md -/

/-- Settles O28: `eqRep` decides equality, which CANON makes equality of values; off CANON, zero and negative zero
have the same value and different tails. -/
theorem equalityIsStructuralAndCanonicalByValue : Obligations.EqualityIsStructuralAndCanonicalByValue := by
  refine ⟨eqRep_eq_true_iff_fields, fun r => ?reflexive, fun r q h => ?symmetric, fun r q p h h' => ?transitive,
    fun r q hr hq => ?byValue, ?sameValueUnequal⟩
  case reflexive => exact (eqRep_eq_true_iff r r).2 rfl
  case symmetric =>
    rw [eqRep_eq_true_iff] at h ⊢
    exact h.symm
  case transitive =>
    rw [eqRep_eq_true_iff] at h h' ⊢
    exact h.trans h'
  case byValue => rw [eqRep_eq_true_iff, eq_iff_val_eq_of_canonical hr hq]
  case sameValueUnequal => exact ⟨⟨0x00000000, []⟩, ⟨0x80000000, []⟩, 0, by decide, by decide, by decide⟩

/-- Settles O40: EQ is `eqRep` of the two slots, which reset makes the same representation. -/
theorem eqComparesTheSlots : Obligations.EqComparesTheSlots := by
  refine ⟨by decide, fun i => ?illegal, fun s => ?compares, fun s x i v => readSlot_set_head_of_hlen_le s x v,
    by decide, by decide, by decide, by decide, fun s t ran => ?afterReset⟩
  case illegal =>
    have rejected : decodeWord 0x0000001A#32 = .reject .eqSlotB := by decide
    rw [rejected]
    exact nofun
  case compares => rw [exec_eq, eqRep_eq_decide_fields]
  case afterReset =>
    have sameRep : s.platformReset.readSlot .a = s.platformReset.readSlot .b := by
      rw [readSlot_platformReset, readSlot_platformReset]
    rw [exec_eq] at ran
    obtain rfl := Host.Outcome.next.inj ran
    exact (eqRep_eq_true_iff _ _).2 sameRep

end Sys2Proof.Machine
end

section
/-! PROOFS. The decoder and the encoder as inverses, and the byte lanes of a word (spec 30_encoding.md R80 to R85,
20_memory.md R53). -/

namespace Sys2Proof

/-! ### A word is its three fields (R80) -/

theorem eq_of_fields {w v : Word32} (rsv : rsvField w = 0) (rsv' : rsvField v = 0)
    (slot : slotField w = slotField v) (op : opField w = opField v) : w = v := by
  have bit4 : w.toNat / 2 ^ 4 % 2 = 0 ↔ v.toNat / 2 ^ 4 % 2 = 0 := by
    rw [← slotField_eq_a_iff, ← slotField_eq_a_iff, slot]
  rw [rsvField_eq_zero_iff] at rsv rsv'
  rw [← BitVec.toNat_inj, opField_toNat, opField_toNat] at op
  rw [← BitVec.toNat_inj]
  omega

theorem fields_encode (i : Instr) :
    rsvField (encode i) = 0 ∧ slotField (encode i) = i.slotOperand ∧ opField (encode i) = i.opcode := by
  cases i with
  | encI32 x => exact Laws.EncodeFields.encI32 x
  | encU32 x => exact Laws.EncodeFields.encU32 x
  | encI64 x => exact Laws.EncodeFields.encI64 x
  | encU64 x => exact Laws.EncodeFields.encU64 x
  | decI32 x => exact Laws.EncodeFields.decI32 x
  | decU32 x => exact Laws.EncodeFields.decU32 x
  | decI64 x => exact Laws.EncodeFields.decI64 x
  | decU64 x => exact Laws.EncodeFields.decU64 x
  | sgn x => exact Laws.EncodeFields.sgn x
  | eq => exact Laws.EncodeFields.eq

theorem eq_encode_iff_fields (w : Word32) (i : Instr) :
    w = encode i ↔ rsvField w = 0 ∧ slotField w = i.slotOperand ∧ opField w = i.opcode := by
  obtain ⟨rsv, slot, op⟩ := fields_encode i
  constructor
  · rintro rfl
    exact ⟨rsv, slot, op⟩
  · rintro ⟨rsv', slot', op'⟩
    exact eq_of_fields rsv' rsv (slot'.trans slot.symm) (op'.trans op.symm)

/-! ### What the decoder reads -/

/-- The decoder's tests, passed, fix the three fields of the word. -/
theorem fields_of_decodeWord {w : Word32} {i : Instr} (h : decodeWord w = .command i) :
    rsvField w = 0 ∧ slotField w = i.slotOperand ∧ opField w = i.opcode := by
  by_cases rsv : rsvField w = 0
  case neg =>
    rw [decodeWord_of_rsvField_ne_zero rsv] at h
    cases h
  case pos =>
    refine ⟨rsv, ?_⟩
    rw [decodeWord, if_neg (not_not_intro rsv)] at h
    split at h
    -- OP = 0xA: EQ, and only with SLOT = 0.
    case h_10 op =>
      split at h
      next slot =>
        cases h
        exact ⟨slot, BitVec.eq_of_toNat_eq op⟩
      next => cases h
    -- No OP from 0x1 to 0xA: rejected.
    case h_11 => cases h
    -- OP from 0x1 to 0x9: the command of that opcode, on the slot of SLOT.
    all_goals
      next op =>
        cases h
        exact ⟨rfl, BitVec.eq_of_toNat_eq op⟩

theorem decodeWord_of_fields {w : Word32} {i : Instr} (rsv : rsvField w = 0)
    (slot : slotField w = i.slotOperand) (op : opField w = i.opcode) : decodeWord w = .command i := by
  rw [decodeWord, if_neg (not_not_intro rsv), op, slot]
  cases i <;> rfl

@[simp] theorem decodeWord_encode (i : Instr) : decodeWord (encode i) = .command i := by
  obtain ⟨rsv, slot, op⟩ := fields_encode i
  exact decodeWord_of_fields rsv slot op

/-! ### The byte lanes of a word (R53) -/

theorem getLsbD_byteOfWord (w : Word32) (k : Nat) {j : Nat} (h : j < 8) :
    (byteOfWord w k).getLsbD j = w.getLsbD (8 * k + j) := by
  rw [byteOfWord, BitVec.getLsbD_extractLsb', decide_eq_true h, Bool.true_and]

@[simp] theorem wordOfBytes_byteOfWord (w : Word32) :
    wordOfBytes (byteOfWord w 0) (byteOfWord w 1) (byteOfWord w 2) (byteOfWord w 3) = w := by
  refine BitVec.eq_of_getLsbD_eq fun i hi => ?_
  simp only [wordOfBytes, BitVec.getLsbD_append]
  split
  · rw [getLsbD_byteOfWord w 0 (by omega)]
    congr 1
    omega
  split
  · rw [getLsbD_byteOfWord w 1 (by omega)]
    congr 1
    omega
  split
  · rw [getLsbD_byteOfWord w 2 (by omega)]
    congr 1
    omega
  · rw [getLsbD_byteOfWord w 3 (by omega)]
    congr 1
    omega

theorem decodeBytes_byteOfWord (w : Word32) :
    decodeBytes [byteOfWord w 0, byteOfWord w 1, byteOfWord w 2, byteOfWord w 3] = decodeWord w := by
  rw [decodeBytes, wordOfBytes_byteOfWord]

/-- A table word that stands for a command fits 32 bits, and the decoder reads that command from it. -/
theorem decodeWord_of_decodeTableWord {nbits w : Nat} {i : Instr} (h : decodeTableWord nbits w = some i) :
    decodeWord (BitVec.ofNat 32 (w % 2 ^ nbits)) = .command i := by
  simp only [decodeTableWord, decodeBytes_byteOfWord] at h
  split at h
  · split at h
    next j read =>
      cases h
      exact read
    next => cases h
  · cases h

/-! ### The obligations of 30_encoding.md §2 to §4 and 20_memory.md §2 -/

/-- Settles O2: a word decodes to a command exactly when its three fields are that command's, and so is its encoding
(`eq_encode_iff_fields`). -/
theorem decodeIsExactInverseOfEncode : Obligations.DecodeIsExactInverseOfEncode := by
  intro w i
  rw [eq_encode_iff_fields]
  exact ⟨fields_of_decodeWord, fun ⟨rsv, slot, op⟩ => decodeWord_of_fields rsv slot op⟩

/-- Settles O4: byte `k` is the slice of the word at bit `8k`, and the four slices side by side are the word. -/
theorem byteLanesCarryTheWord : Obligations.ByteLanesCarryTheWord :=
  ⟨fun w k _ _ hj => getLsbD_byteOfWord w k hj, decodeBytes_byteOfWord⟩

/-- Settles O1: each command word is the encoding that the decoder undoes; the three illegal words are evaluated. -/
theorem writtenWordsDecodeAsMapped : Obligations.WrittenWordsDecodeAsMapped :=
  ⟨decodeWord_encode (.encI32 .a), decodeWord_encode (.encU32 .b), decodeWord_encode (.encI64 .a),
    decodeWord_encode (.encU64 .b), decodeWord_encode (.decI32 .a), decodeWord_encode (.decU32 .b),
    decodeWord_encode (.decI64 .a), decodeWord_encode (.decU64 .b), decodeWord_encode (.sgn .b),
    decodeWord_encode .eq, by decide, by decide, by decide⟩

end Sys2Proof
end

section
/-! PROOFS. Accesses, steps and runs: what an access that completes did, which accesses are refused, and what a step
does with the first pending access (spec 20_memory.md R54 to R60, 60_exceptions.md R240, 30_encoding.md R86). -/

namespace Sys2Proof.Machine

/-! ### Refusals (R54) -/

/-- The name an access outside the interface is refused by. -/
theorem accessRefusal_eq_some_iff (offset bytes : Nat) (r : Refusal) :
    accessRefusal offset bytes = some r ↔
      (r = .accessWidth ∧ bytes ≠ 4) ∨ (r = .accessMisaligned ∧ bytes = 4 ∧ offset % 4 ≠ 0) ∨
      (r = .accessOutsideWindow ∧ bytes = 4 ∧ offset % 4 = 0 ∧ 0x0C0 ≤ offset) := by
  refine ⟨accessRefusal_eq_some, ?_⟩
  rintro (⟨rfl, width⟩ | ⟨rfl, rfl, aligned⟩ | ⟨rfl, rfl, aligned, outside⟩)
  · exact if_pos width
  · rw [accessRefusal, if_neg (by omega), if_pos aligned]
  · rw [accessRefusal, if_neg (by omega), if_neg (by omega), if_pos outside]

/-- The refusal of a whole access; a reset has none. -/
def HostAccess.refusal : HostAccess → Option Refusal
  | .read offset bytes => accessRefusal offset bytes
  | .write offset bytes _ => accessRefusal offset bytes
  | .reset => none

theorem legal_iff_refusal_eq_none (a : HostAccess) : a.Legal ↔ a.refusal = none := by
  cases a with
  | read offset bytes => exact (accessRefusal_eq_none_iff offset bytes).symm
  | write offset bytes v => exact (accessRefusal_eq_none_iff offset bytes).symm
  | reset => exact iff_of_true trivial rfl

theorem performAccess_of_refusal {a : HostAccess} {r : Refusal} (h : a.refusal = some r) (s : State) :
    performAccess a s = .refused r := by
  cases a with
  | read offset bytes =>
    have hr : accessRefusal offset bytes = some r := h
    simp only [performAccess, memRead, hr]
  | write offset bytes v =>
    have hr : accessRefusal offset bytes = some r := h
    simp only [performAccess, memWrite, hr]
  | reset => cases h

/-! ### Accesses that complete (R57, R59, R270) -/

/-- Everything a legal access does: it reports a read, runs the command of a CMD write, writes another register, or
resets the block. -/
theorem performAccess_cases {a : HostAccess} {s t : State} (h : performAccess a s = .next t) :
    (∃ offset, a = .read offset 4 ∧ t = s.report (s.windowRead offset)) ∨
    (∃ offset v, a = .write offset 4 v ∧
      (executeCommand v s = .next t ∨ t = s.writeReg v (windowReg s.params.headCap offset))) ∨
    (a = .reset ∧ t = s.platformReset) := by
  have legal : a.refusal = none := by
    cases hr : a.refusal with
    | none => rfl
    | some r =>
      rw [performAccess_of_refusal hr] at h
      cases h
  cases a with
  | read offset bytes =>
    obtain ⟨rfl, -⟩ := (accessRefusal_eq_none_iff offset bytes).1 legal
    rw [performAccess, memRead_legal offset s legal] at h
    exact .inl ⟨offset, rfl, (Host.Outcome.next.inj h).symm⟩
  | write offset bytes v =>
    obtain ⟨rfl, -⟩ := (accessRefusal_eq_none_iff offset bytes).1 legal
    rw [performAccess, memWrite_legal offset v s legal] at h
    refine .inr (.inl ⟨offset, v, rfl, ?_⟩)
    split at h
    · exact .inl h
    · exact .inr (Host.Outcome.next.inj h).symm
  | reset => exact .inr (.inr ⟨rfl, (Host.Outcome.next.inj h).symm⟩)

theorem performAccess_completes {a : HostAccess} (h : a.Legal) (s : State) :
    ∃ t, performAccess a s = .next t ∧ t.inputs = s.inputs := by
  cases a with
  | read offset bytes =>
    have legal := (accessRefusal_eq_none_iff offset bytes).2 h
    obtain ⟨rfl, -⟩ := h
    exact ⟨_, memRead_legal offset s legal, rfl⟩
  | write offset bytes v =>
    have legal := (accessRefusal_eq_none_iff offset bytes).2 h
    obtain ⟨rfl, -⟩ := h
    obtain ⟨t, ht, -, hi, -⟩ := memWrite_completes v s legal
    exact ⟨t, ht, hi⟩
  | reset => exact ⟨_, rfl, State.platformReset_inputs s⟩

theorem performAccess_eq_refused_iff (a : HostAccess) (s : State) (r : Refusal) :
    performAccess a s = .refused r ↔ a.refusal = some r := by
  refine ⟨fun h => ?_, fun h => performAccess_of_refusal h s⟩
  cases hr : a.refusal with
  | some q =>
    rw [performAccess_of_refusal hr] at h
    cases h
    rfl
  | none =>
    obtain ⟨t, ht, -⟩ := performAccess_completes ((legal_iff_refusal_eq_none a).2 hr) s
    rw [ht] at h
    cases h

/-- A command leaves the host's side of the state alone. -/
theorem executeCommand_hostSide {w : Word32} {s t : State} (h : executeCommand w s = .next t) :
    t.params = s.params ∧ t.inputs = s.inputs ∧ t.trace = s.trace := by
  obtain ⟨u, hu, hostSide⟩ := executeCommand_completes w s
  rw [h] at hu
  cases hu
  exact hostSide

/-- A write that completes leaves the host's side of the state alone. -/
theorem performAccess_write_hostSide {offset bytes : Nat} {v : Word32} {s t : State}
    (h : performAccess (.write offset bytes v) s = .next t) : t.inputs = s.inputs ∧ t.trace = s.trace := by
  obtain ⟨o, hw, -⟩ | ⟨o, w, hw, ran | rfl⟩ | ⟨hw, -⟩ := performAccess_cases h
  · cases hw
  · cases hw
    exact (executeCommand_hostSide ran).2
  · exact (writeReg_hostSide s w _).2
  · cases hw

/-! ### Steps -/

theorem step_completes {s : State} (h : ∀ a ∈ s.inputs, a.Legal) :
    ∃ t, step s = .next t ∧ ∀ a ∈ t.inputs, a.Legal := by
  cases hi : s.inputs with
  | nil => exact ⟨s, step_of_no_inputs hi, h⟩
  | cons a rest =>
    rw [hi] at h
    obtain ⟨t, ht, hrest⟩ := performAccess_completes (h a (by simp)) { s with inputs := rest }
    refine ⟨t, (step_of_inputs hi).trans ht, fun b hb => h b ?_⟩
    rw [hrest] at hb
    exact List.mem_cons_of_mem a hb

theorem step_cmdWrite {s : State} {w : Word32} {rest : List HostAccess}
    (h : s.inputs = .write 0x000 4 w :: rest) : step s = executeCommand w { s with inputs := rest } := by
  rw [step_of_inputs h, performAccess, memWrite_cmd]

theorem executeCommand_of_command {w : Word32} {i : Instr} (h : decodeWord w = .command i) (s : State) :
    executeCommand w s = exec i s := by
  rw [executeCommand, h]

/-! ### The obligations of 20_memory.md §3 and §5, and of R13, R86 and R240 -/

/-- Settles O5: the first pending access is the CMD write, and the step is that access. -/
theorem cmdWriteStepRunsTheCommand : Obligations.CmdWriteStepRunsTheCommand := by
  intro s w rest pending
  refine ⟨step_cmdWrite pending, fun i hd _ => ?_⟩
  rw [step_cmdWrite pending, executeCommand_of_command hd]

/-- Settles O6: placing the word makes its CMD write the first pending access, and taking that off the list gives the
state it was placed in. -/
theorem placedWordRunsItsCommand : Obligations.PlacedWordRunsItsCommand := by
  intro s nbits w i placed
  have pending : (s.withFetchWord nbits w).inputs = .write 0x000 4 (BitVec.ofNat 32 (w % 2 ^ nbits)) :: s.inputs := rfl
  rw [step_cmdWrite pending, executeCommand_of_command (decodeWord_of_decodeTableWord placed)]
  rfl

/-- Settles O7: the idle step. -/
theorem idleBlockKeepsItsState : Obligations.IdleBlockKeepsItsState := fun _ => step_of_no_inputs

/-- Settles O8: the step's refusal is the access's own, which `accessRefusal_eq_some_iff` names. -/
theorem onlyAccessesOutsideTheInterfaceAreRefused : Obligations.OnlyAccessesOutsideTheInterfaceAreRefused := by
  intro s a rest pending
  have refused_iff (r : Refusal) : step s = .refused r ↔ a.refusal = some r := by
    rw [step_of_inputs pending, performAccess_eq_refused_iff]
  refine ⟨?outside, fun offset bytes v access => ?names⟩
  case outside => simp only [refused_iff, legal_iff_refusal_eq_none, Option.ne_none_iff_exists', ← ne_eq]
  case names =>
    have sameTest : a.refusal = accessRefusal offset bytes := by obtain rfl | rfl := access <;> rfl
    simp [refused_iff, sameTest, accessRefusal_eq_some_iff]

/-- Settles O9, by induction on the length of the run: a step completes and leaves only legal accesses pending. -/
theorem legalAccessesAlwaysComplete : Obligations.LegalAccessesAlwaysComplete := by
  intro n
  induction n with
  | zero => exact fun s _ => ⟨s, run_zero s⟩
  | succ n ih =>
    intro s legal
    obtain ⟨t, ht, legal'⟩ := step_completes legal
    obtain ⟨u, hu⟩ := ih t legal'
    exact ⟨u, (run_succ_of_step n ht).trans hu⟩

/-- Settles O10: `performAccess_cases` on the first pending access. -/
theorem accessesPerformInIssueOrder : Obligations.AccessesPerformInIssueOrder := by
  refine ⟨fun s offset bytes v rest pending => step_of_inputs pending, fun s t a rest pending ran => ?_⟩
  rw [step_of_inputs pending] at ran
  obtain ⟨offset, rfl, rfl⟩ | ⟨offset, v, rfl, -⟩ | ⟨rfl, rfl⟩ := performAccess_cases ran
  case inl =>
    refine ⟨rfl, fun o bytes same => ?_, nofun, fun noRead => absurd rfl (noRead offset 4)⟩
    cases same
    rfl
  case inr.inl =>
    obtain ⟨hi, ht⟩ := performAccess_write_hostSide ran
    exact ⟨hi, nofun, nofun, fun _ => ht⟩
  case inr.inr => exact ⟨rfl, nofun, fun _ => rfl, fun _ => rfl⟩

end Sys2Proof.Machine
end

section
/-! PROOFS. The register window: what each offset reads, what a register write stores and leaves alone, and where the
fields of STATUS stand (spec 20_memory.md R51 to R57, 10_state.md R22 to R28). -/

namespace Sys2Proof.Machine

/-! ### The map -/

theorem slotBase_aligned_le (x : Slot) : slotBase x % 4 = 0 ∧ slotBase x ≤ 0x080 := by
  cases x <;> decide

@[simp] theorem windowReg_tail (cap : Nat) (x : Slot) : windowReg cap (slotBase x) = .tail x := by
  cases x <;> rfl

theorem windowReg_dataLo (cap : Nat) : windowReg cap 0x008 = .dataLo := rfl

theorem windowReg_dataHi (cap : Nat) : windowReg cap 0x00C = .dataHi := rfl

@[simp] theorem windowRead_tail (s : State) (x : Slot) : s.windowRead (slotBase x) = (s.slot x).tail := by
  rw [State.windowRead, windowReg_tail, State.readReg]

theorem headCap_le {s : State} (h : s.Inv) : s.params.headCap ≤ 12 := by
  obtain ⟨⟨-, hcap⟩, -⟩ := h
  exact hcap

theorem windowRead_head {s : State} (h : s.Inv) (x : Slot) {i : Nat} (hi : i < s.params.headCap) :
    s.windowRead (slotBase x + 0x10 + 4 * i) = s.headWord x i := by
  have hcap := headCap_le h
  rw [State.windowRead, windowReg_head x hi (by omega), State.readReg]

/-- Under the invariant a head register of the slot is the head word of that index. -/
theorem getElem?_head {s : State} (h : s.Inv) (x : Slot) {i : Nat} (hi : i < s.params.headCap) :
    (s.slot x).head[i]? = some (s.headWord x i) := by
  obtain ⟨-, hlen⟩ := slot_wellFormed h x
  have inside : i < (s.slot x).head.length := by omega
  rw [State.headWord, List.getD_eq_getElem?_getD, List.getElem?_eq_getElem inside, Option.getD_some]

theorem dataHi_append_dataLo (d : Word64) : dataHi d ++ dataLo d = d := by
  refine BitVec.eq_of_getLsbD_eq fun i hi => ?_
  rw [getLsbD_append32, dataLo, dataHi, BitVec.getLsbD_extractLsb', BitVec.getLsbD_extractLsb']
  split
  next low => simp [low]
  next high =>
    rw [decide_eq_true (by omega), Bool.true_and]
    congr 1
    omega

/-! ### What a register write stores and leaves alone (R57) -/

/-- Writing the registers of a slot leaves a register alone that shows none of what changed. -/
theorem readReg_setSlot {s : State} {x : Slot} {r : SlotRegs} {p : WindowReg}
    (ht : p = .tail x → r.tail = (s.slot x).tail) (hl : p = .hlen x → r.hlen = (s.slot x).hlen)
    (hh : ∀ i, p = .head x i → r.head.getD i 0 = s.headWord x i) :
    (s.setSlot x r).readReg p = s.readReg p := by
  have otherSlot {y : Slot} (h : y ≠ x) : (s.setSlot x r).slot y = s.slot y := setSlot_slot_of_ne s r h
  cases p with
  | tail y =>
    by_cases h : y = x
    · subst h
      simp only [State.readReg, State.setSlot_slot, ht rfl]
    · simp only [State.readReg, otherSlot h]
  | hlen y =>
    by_cases h : y = x
    · subst h
      simp only [State.readReg, State.setSlot_slot, hl rfl]
    · simp only [State.readReg, otherSlot h]
  | head y i =>
    by_cases h : y = x
    · subst h
      rw [State.readReg, State.readReg, State.headWord, State.setSlot_slot, hh i rfl]
    · simp only [State.readReg, State.headWord, otherSlot h]
  | status => simp [State.readReg]
  | dataLo => simp [State.readReg]
  | dataHi => simp [State.readReg]
  | caps => simp [State.readReg]
  | cmd => rfl
  | reserved => rfl

/-- A register write leaves every other register alone. -/
theorem readReg_writeReg_of_ne (s : State) (v : Word32) {p q : WindowReg} (h : p ≠ q) :
    (s.writeReg v q).readReg p = s.readReg p := by
  cases q with
  | dataLo =>
    cases p with
    | dataLo => exact absurd rfl h
    | dataHi => simp [State.writeReg, State.readReg]
    | _ => exact readReg_congr rfl (by simp) (fun _ => rfl) fun x _ => State.slot_withData s _ x
  | dataHi =>
    cases p with
    | dataHi => exact absurd rfl h
    | dataLo => simp [State.writeReg, State.readReg]
    | _ => exact readReg_congr rfl (by simp) (fun _ => rfl) fun x _ => State.slot_withData s _ x
  | tail x => exact readReg_setSlot (fun hp => absurd hp h) (fun _ => rfl) (fun _ _ => rfl)
  | hlen x =>
    rw [State.writeReg]
    split
    · exact readReg_setSlot (fun _ => rfl) (fun hp => absurd hp h) (fun _ _ => rfl)
    · rfl
  | head x i =>
    refine readReg_setSlot (fun _ => rfl) (fun _ => rfl) fun j hp => ?_
    have hij : i ≠ j := fun hij => h (hij ▸ hp)
    rw [State.headWord, List.getD_eq_getElem?_getD, List.getElem?_set_ne hij, ← List.getD_eq_getElem?_getD]
  | status => rfl
  | caps => rfl
  | cmd => rfl
  | reserved => rfl

theorem readReg_writeReg_dataLo (s : State) (v : Word32) : (s.writeReg v .dataLo).readReg .dataLo = v := by
  simp [State.writeReg, State.readReg]

theorem readReg_writeReg_dataHi (s : State) (v : Word32) : (s.writeReg v .dataHi).readReg .dataHi = v := by
  simp [State.writeReg, State.readReg]

theorem readReg_writeReg_tail (s : State) (x : Slot) (v : Word32) :
    (s.writeReg v (.tail x)).readReg (.tail x) = v := by
  simp [State.writeReg, State.readReg]

theorem readReg_writeReg_head {s : State} (h : s.Inv) (x : Slot) {i : Nat} (hi : i < s.params.headCap)
    (v : Word32) : (s.writeReg v (.head x i)).readReg (.head x i) = v := by
  obtain ⟨-, hlen⟩ := slot_wellFormed h x
  have inside : i < (s.slot x).head.length := by omega
  simp [State.writeReg, State.readReg, State.headWord, List.getElem?_set_self inside]

/-- A host write of a register that stores the value: it reads back, and nothing else in the window changes. -/
theorem memWrite_stores {s : State} {offset : Nat} {v : Word32} {q : WindowReg}
    (legal : accessRefusal offset 4 = none) (hq : windowReg s.params.headCap offset = q) (notCmd : q ≠ .cmd)
    (notReserved : q ≠ .reserved) (stored : (s.writeReg v q).readReg q = v) :
    ∃ t, memWrite offset 4 v s = .next t ∧ t.windowRead offset = v ∧ t.params = s.params ∧ t.trace = s.trace ∧
      t.inputs = s.inputs ∧ ∀ o, o ≠ offset → t.windowRead o = s.windowRead o := by
  obtain ⟨hp, hi, ht⟩ := writeReg_hostSide s v q
  refine ⟨s.writeReg v q, ?written, ?readsBack, hp, ht, hi, fun o ho => ?frame⟩
  case written => rw [memWrite_legal offset v s legal, hq, if_neg notCmd]
  case readsBack => rw [State.windowRead, hp, hq, stored]
  case frame =>
    have elsewhere : windowReg s.params.headCap o ≠ q := fun same =>
      ho (windowReg_injective (same.trans hq.symm) (same ▸ notReserved))
    rw [State.windowRead, hp, readReg_writeReg_of_ne s v elsewhere, State.windowRead]

/-! ### STATUS as a word (R28) -/

theorem windowRead_status (s : State) : s.windowRead 0x004 = s.status.toWord := rfl

theorem toWord_getLsbD (f : Status) :
    f.toWord.getLsbD 0 = f.ovf ∧ f.toWord.getLsbD 1 = f.neg ∧ f.toWord.getLsbD 2 = f.ill ∧
      f.toWord.getLsbD 3 = f.eq := by
  simp only [Status.toWord, BitVec.getLsbD_append]
  simp

/-- SGN stands at bits 5:4, and the reserved bits above it are 0; 64 field values. -/
theorem toWord_sgn_reserved (f : Status) : f.toWord.extractLsb' 4 2 = f.sgn ∧ f.toWord.toNat < 2 ^ 6 := by
  obtain ⟨ovf, neg, ill, eq, sgn⟩ := f
  revert ovf neg ill eq sgn
  decide

/-! ### The obligations of 20_memory.md §1 and §3 and 10_state.md §4 -/

/-- Settles O11: each offset names its register. -/
theorem registerMapReads : Obligations.RegisterMapReads := by
  intro s hinv
  have hlenReads (x : Slot) : (s.windowRead (slotBase x + 0x04)).toNat = (s.slot x).hlen := by
    obtain ⟨hbound, -⟩ := slot_wellFormed hinv x
    have hcap := headCap_le hinv
    rw [windowRead_hlen, BitVec.toNat_ofNat]
    omega
  have headReads (x : Slot) (i : Nat) (hi : i < s.params.headCap) :
      (s.slot x).head[i]? = some (s.windowRead (slotBase x + 0x10 + 4 * i)) := by
    rw [windowRead_head hinv x hi, getElem?_head hinv x hi]
  exact ⟨rfl, windowRead_status s, dataHi_append_dataLo s.data, windowRead_caps s, windowRead_tail s .a, hlenReads .a,
    windowRead_tail s .b, hlenReads .b, headReads .a, headReads .b⟩

/-- Settles O13: each of these offsets names a register that stores (`memWrite_stores`). -/
theorem registerWriteReadsBackAndTouchesNothingElse : Obligations.RegisterWriteReadsBackAndTouchesNothingElse := by
  rintro s offset v hinv (rfl | rfl | ⟨x, rfl⟩ | ⟨x, i, hi, rfl⟩)
  · exact memWrite_stores rfl (windowReg_dataLo _) nofun nofun (readReg_writeReg_dataLo s v)
  · exact memWrite_stores rfl (windowReg_dataHi _) nofun nofun (readReg_writeReg_dataHi s v)
  · exact memWrite_stores (by cases x <;> rfl) (windowReg_tail _ x) nofun nofun (readReg_writeReg_tail s x v)
  · have hcap := headCap_le hinv
    have legal : accessRefusal (slotBase x + 0x10 + 4 * i) 4 = none := by
      rw [accessRefusal_eq_none_iff]
      obtain ⟨aligned, inside⟩ := slotBase_aligned_le x
      omega
    exact memWrite_stores legal (windowReg_head x hi (by omega)) nofun nofun (readReg_writeReg_head hinv x hi v)

/-- Settles O15: the bits of `Status.toWord`, and STATUS is a register that a host write ignores. -/
theorem statusWordLayout : Obligations.StatusWordLayout := by
  intro s v
  obtain ⟨ovf, neg, ill, eq⟩ := toWord_getLsbD s.status
  obtain ⟨sgn, reserved⟩ := toWord_sgn_reserved s.status
  exact ⟨ovf, neg, ill, eq, sgn, reserved, rfl⟩

end Sys2Proof.Machine
end

section
/-! PROOFS. The commands by their kind: what an encoder, a decoder, SGN, EQ and an illegal word write, and their frames
read through the window (spec 41_encoders.md R140, 43_decoders.md R180, 42_sign.md R172, 44_equality.md R221,
60_exceptions.md R241, R243). -/

namespace Sys2Proof.Machine

/-! ### The kinds of command -/

/-- The four encoder commands on slot `x`. -/
def IsEncoder (i : Instr) (x : Slot) : Prop := i = .encI32 x ∨ i = .encU32 x ∨ i = .encI64 x ∨ i = .encU64 x

/-- The four decoder commands on slot `x`. -/
def IsDecoder (i : Instr) (x : Slot) : Prop := i = .decI32 x ∨ i = .decU32 x ∨ i = .decI64 x ∨ i = .decU64 x

theorem instr_kinds (i : Instr) :
    (∃ x, IsEncoder i x) ∨ (∃ x, IsDecoder i x) ∨ (∃ x, i = .sgn x) ∨ i = .eq := by
  cases i with
  | encI32 x => exact .inl ⟨x, .inl rfl⟩
  | encU32 x => exact .inl ⟨x, .inr (.inl rfl)⟩
  | encI64 x => exact .inl ⟨x, .inr (.inr (.inl rfl))⟩
  | encU64 x => exact .inl ⟨x, .inr (.inr (.inr rfl))⟩
  | decI32 x => exact .inr (.inl ⟨x, .inl rfl⟩)
  | decU32 x => exact .inr (.inl ⟨x, .inr (.inl rfl)⟩)
  | decI64 x => exact .inr (.inl ⟨x, .inr (.inr (.inl rfl))⟩)
  | decU64 x => exact .inr (.inl ⟨x, .inr (.inr (.inr rfl))⟩)
  | sgn x => exact .inr (.inr (.inl ⟨x, rfl⟩))
  | eq => exact .inr (.inr (.inr rfl))

theorem length_canon_head_le {n : Int} (lo : -2 ^ 63 ≤ n) (hi : n ≤ 2 ^ 64 - 1) : (canon n).head.length ≤ 2 :=
  length_pack_head_le _ (by omega)

/-- An encoder stores a representation of DATA alone, of at most two head words, in its slot (R140, R149). -/
theorem exec_of_isEncoder {i : Instr} {x : Slot} (h : IsEncoder i x) : ∃ enc : Word64 → Rep,
    (∀ d, (enc d).head.length ≤ 2) ∧ ∀ s, exec i s = .next (s.writeSlot x (enc s.data)).succeed := by
  obtain rfl | rfl | rfl | rfl := h
  · refine ⟨fun d => canon (nativeI32 d), fun d => ?_, exec_encI32 x⟩
    obtain ⟨lo, hi⟩ := nativeI32_range d
    exact length_canon_head_le (by omega) (by omega)
  · refine ⟨fun d => pack false (nativeU32 d), fun d => ?_, exec_encU32 x⟩
    have hi := nativeU32_range d
    exact length_pack_head_le _ (by omega)
  · refine ⟨fun d => canon (nativeI64 d), fun d => ?_, exec_encI64 x⟩
    obtain ⟨lo, hi⟩ := nativeI64_range d
    exact length_canon_head_le lo (by omega)
  · refine ⟨fun d => pack false (nativeU64 d), fun d => ?_, exec_encU64 x⟩
    have hi := nativeU64_range d
    exact length_pack_head_le _ (by omega)

/-! ### The cause of a decoder's overflow (R183, R187) -/

theorem decI32_ne_ovf_neg (z : SignZeroTest) (r : Rep) : decI32 z r ≠ .ovf .neg := by
  rw [decI32]
  split
  · exact nofun
  · split <;> exact nofun
  · exact nofun

theorem decI64_ne_ovf_neg (z : SignZeroTest) (r : Rep) : decI64 z r ≠ .ovf .neg := by
  rw [decI64]
  split
  · exact nofun
  · exact nofun
  · split <;> exact nofun
  · exact nofun

theorem decU32_eq_ovf_neg_iff (z : SignZeroTest) (r : Rep) : decU32 z r = .ovf .neg ↔ signOf z r = .neg := by
  refine ⟨fun h => ?_, decU32_of_neg⟩
  by_contra hs
  rw [decU32, if_neg hs] at h
  split at h
  · cases h
  · split at h <;> cases h
  · cases h

theorem decU64_eq_ovf_neg_iff (z : SignZeroTest) (r : Rep) : decU64 z r = .ovf .neg ↔ signOf z r = .neg := by
  refine ⟨fun h => ?_, decU64_of_neg⟩
  by_contra hs
  rw [decU64, if_neg hs] at h
  split at h <;> cases h

/-- A decoder ends by `finishDecode` of a result its slot's content decides, with cause NEG exactly for an unsigned
target and the sign -1 (R180, R183, R187). -/
theorem exec_of_isDecoder {i : Instr} {x : Slot} (h : IsDecoder i x) :
    ∃ (toData : Int → Word64) (dec : SignZeroTest → Rep → DecResult),
      (∀ s, exec i s = finishDecode toData (dec s.params.signZeroTest (s.readSlot x)) s) ∧
      ∀ z r, dec z r = .ovf .neg ↔ (i = .decU32 x ∨ i = .decU64 x) ∧ signOf z r = .neg := by
  obtain rfl | rfl | rfl | rfl := h
  · exact ⟨sext64, decI32, exec_decI32 x, fun z r => by simp [decI32_ne_ovf_neg]⟩
  · exact ⟨zext64, decU32, exec_decU32 x, fun z r => by simp [decU32_eq_ovf_neg_iff]⟩
  · exact ⟨bv64, decI64, exec_decI64 x, fun z r => by simp [decI64_ne_ovf_neg]⟩
  · exact ⟨bv64, decU64, exec_decU64 x, fun z r => by simp [decU64_eq_ovf_neg_iff]⟩

/-! ### Reads of the window that a change of the state does not touch -/

theorem slot_eq_of_slotReg {cap rel : Nat} {x y : Slot}
    (h : slotReg cap y rel = .tail x ∨ slotReg cap y rel = .hlen x ∨ ∃ i, slotReg cap y rel = .head x i) :
    y = x := by
  unfold slotReg at h
  split at h
  · simp_all
  split at h
  · simp_all
  split at h
  · simp_all
  · simp_all

/-- A register of a slot stands inside that slot's block of the window (R51). -/
theorem slotBase_le_of_windowReg {cap o : Nat} {x : Slot}
    (h : windowReg cap o = .tail x ∨ windowReg cap o = .hlen x ∨ ∃ i, windowReg cap o = .head x i) :
    slotBase x ≤ o ∧ o < slotBase x + 0x40 := by
  by_cases inSlot : ∃ y rel, rel < 0x40 ∧ o = slotBase y + rel
  case pos =>
    obtain ⟨y, rel, hrel, rfl⟩ := inSlot
    rw [windowReg_slotBase_add cap y hrel] at h
    obtain rfl := slot_eq_of_slotReg h
    omega
  case neg =>
    have notA : ¬ (0x040 ≤ o ∧ o < 0x080) := fun ⟨lo, hi⟩ =>
      inSlot ⟨.a, o - 0x040, by omega, by simp only [slotBase]; omega⟩
    have notB : ¬ (0x080 ≤ o ∧ o < 0x0C0) := fun ⟨lo, hi⟩ =>
      inSlot ⟨.b, o - 0x080, by omega, by simp only [slotBase]; omega⟩
    simp only [windowReg, notA, notB, if_false] at h
    repeat' split at h
    all_goals simp at h

/-- An offset reads the same in two states that agree on the part of the state it shows. -/
theorem windowRead_congr {s t : State} {o : Nat} (hp : s.params = t.params)
    (hd : o = 0x008 ∨ o = 0x00C → s.data = t.data) (hs : o = 0x004 → s.status = t.status)
    (hx : ∀ x, slotBase x ≤ o → o < slotBase x + 0x40 → s.slot x = t.slot x) :
    s.windowRead o = t.windowRead o := by
  have offset (q : WindowReg) (hq : q ≠ .reserved) (h : windowReg s.params.headCap o = q) : o = regOffset q := by
    rw [← h, regOffset_windowReg (h ▸ hq)]
  rw [State.windowRead, State.windowRead, ← hp]
  refine readReg_congr hp (fun h => hd (h.imp (offset .dataLo nofun) (offset .dataHi nofun)))
    (fun h => hs (offset .status nofun h)) fun x h => ?_
  obtain ⟨lo, hi⟩ := slotBase_le_of_windowReg h
  exact hx x lo hi

theorem windowRead_withStatus (s : State) (f : Status) {o : Nat} (h : o ≠ 0x004) :
    State.windowRead { s with status := f } o = s.windowRead o :=
  windowRead_congr rfl (fun _ => rfl) (fun h' => absurd h' h) fun x _ _ => State.slot_withStatus s f x

/-! ### What a decoder leaves as it was -/

/-- A decoder's two ends, as the fields they leave alone: on overflow DATA is one of them (R180, R241). -/
theorem finishDecode_frame {toData : Int → Word64} {res : DecResult} {s t : State}
    (h : finishDecode toData res s = .next t) :
    t.params = s.params ∧ (∀ x, t.slot x = s.slot x) ∧ (t.status.ovf = true → t.data = s.data) ∧
      t.status.eq = s.status.eq ∧ t.status.sgn = s.status.sgn ∧ t.inputs = s.inputs ∧ t.trace = s.trace := by
  obtain ⟨k, -, rfl⟩ | ⟨c, -, rfl⟩ := finishDecode_cases h <;> simp

/-! ### The frames, read through the window -/

/-- Settles O33: an encoder writes its slot and clears the outcome bits, so an offset outside that slot's block and
other than STATUS shows nothing that changed. -/
theorem encodersWriteOnlyTheirSlotAndOutcome : Obligations.EncodersWriteOnlyTheirSlotAndOutcome := by
  intro i x s t encoder ran
  obtain ⟨enc, -, hexec⟩ := exec_of_isEncoder encoder
  rw [hexec] at ran
  obtain rfl := Host.Outcome.next.inj ran
  refine ⟨fun o notStatus outside => ?window, by simp, by simp, by simp, by simp, by simp⟩
  refine windowRead_congr (by simp) (fun _ => by simp) (fun h => absurd h notStatus) fun y lo hi => ?slot
  have other : y ≠ x := by
    rintro rfl
    omega
  rw [State.succeed_slot, State.writeSlot, setSlot_slot_of_ne s _ other]

/-- Settles O38: `finishDecode_frame`, which leaves STATUS and DATA, and on overflow STATUS alone. -/
theorem decodersWriteOnlyDataAndOutcome : Obligations.DecodersWriteOnlyDataAndOutcome := by
  intro i x s t decoder ran
  obtain ⟨toData, dec, hexec, -⟩ := exec_of_isDecoder decoder
  rw [hexec] at ran
  obtain ⟨hp, hslot, hdata, heq, hsgn, hi, ht⟩ := finishDecode_frame ran
  refine ⟨fun o notStatus notLo notHi => ?window, fun overflow o notStatus => ?overflow, heq, hsgn, hp, hi, ht⟩
  case window =>
    exact windowRead_congr hp (fun h => absurd h (not_or.2 ⟨notLo, notHi⟩)) (fun h => absurd h notStatus)
      fun y _ _ => hslot y
  case overflow =>
    exact windowRead_congr hp (fun _ => hdata overflow) (fun h => absurd h notStatus) fun y _ _ => hslot y

/-- Settles O41: SGN, EQ and an illegal word change STATUS alone. -/
theorem queriesAndIllegalWordsWriteOnlyStatus : Obligations.QueriesAndIllegalWordsWriteOnlyStatus := by
  rintro w s t ran (⟨x, hw⟩ | hw | ⟨r, hw⟩)
  · rw [executeCommand_of_command hw, exec_sgn] at ran
    obtain rfl := Host.Outcome.next.inj ran
    exact ⟨fun o => windowRead_withStatus s _, fun _ => rfl, fun noSgn => absurd hw (noSgn x), rfl, rfl, rfl⟩
  · rw [executeCommand_of_command hw, exec_eq] at ran
    obtain rfl := Host.Outcome.next.inj ran
    exact ⟨fun o => windowRead_withStatus s _, fun noEq => absurd hw noEq, fun _ => rfl, rfl, rfl, rfl⟩
  · rw [executeCommand_of_reject hw] at ran
    obtain rfl := Host.Outcome.next.inj ran
    exact ⟨fun o => windowRead_withStatus s _, fun _ => rfl, fun _ => rfl, rfl, rfl, rfl⟩

end Sys2Proof.Machine
end

section
/-! PROOFS. Outcome codes, repeated commands, unused head words, and a decoder after its encoder (spec
60_exceptions.md R242 to R245, 20_memory.md R56, 10_state.md R25, 70_reset_and_hazards.md R273). -/

namespace Sys2Proof.Machine

/-! ### The outcome of a command (R242, R244, R245) -/

/-- STATUS[2:0] as a number; 64 field values. -/
theorem toWord_mod_eight (f : Status) :
    f.toWord.toNat % 2 ^ 3 = 4 * f.ill.toNat + 2 * f.neg.toNat + f.ovf.toNat := by
  obtain ⟨ovf, neg, ill, eq, sgn⟩ := f
  revert ovf neg ill eq sgn
  decide

/-- NEG only with OVF, and ILL only without, leave the four codes of R242. -/
theorem toWord_mod_eight_mem {f : Status} (hn : f.neg = true → f.ovf = true) (hi : f.ill = true → f.ovf = false) :
    f.toWord.toNat % 2 ^ 3 ∈ [0b000, 0b001, 0b011, 0b100] := by
  rw [toWord_mod_eight]
  cases ho : f.ovf with
  | false =>
    have noNeg : f.neg = false := by simpa [ho] using hn
    cases f.ill <;> simp [noNeg]
  | true =>
    have noIll : f.ill = false := by simpa [ho] using hi
    cases f.neg <;> simp [noIll]

/-- The outcome bits a legal command leaves. -/
theorem exec_outcome (i : Instr) (s : State) : ∃ t, exec i s = .next t ∧ t.status.ill = false ∧
    (t.status.ovf = true → ∃ x, IsDecoder i x) ∧ (t.status.neg = true → t.status.ovf = true) ∧
    (t.status.neg = true ↔ ∃ x, (i = .decU32 x ∨ i = .decU64 x) ∧
      signOf s.params.signZeroTest (s.readSlot x) = .neg) := by
  obtain ⟨x, encoder⟩ | ⟨x, decoder⟩ | ⟨x, rfl⟩ | rfl := instr_kinds i
  · obtain ⟨enc, -, hexec⟩ := exec_of_isEncoder encoder
    have notUnsigned (y : Slot) : ¬ (i = .decU32 y ∨ i = .decU64 y) := by
      obtain rfl | rfl | rfl | rfl := encoder <;> simp
    exact ⟨_, hexec s, by simp [notUnsigned]⟩
  · obtain ⟨toData, dec, hexec, hneg⟩ := exec_of_isDecoder decoder
    have sameSlot (y : Slot) : i = .decU32 y ∨ i = .decU64 y → y = x := by
      obtain rfl | rfl | rfl | rfl := decoder <;> simp [eq_comm]
    have neg_iff : dec s.params.signZeroTest (s.readSlot x) = .ovf .neg ↔
        ∃ y, (i = .decU32 y ∨ i = .decU64 y) ∧ signOf s.params.signZeroTest (s.readSlot y) = .neg := by
      rw [hneg]
      refine ⟨fun h => ⟨x, h⟩, fun ⟨y, unsigned, negative⟩ => ?_⟩
      obtain rfl := sameSlot y unsigned
      exact ⟨unsigned, negative⟩
    rw [hexec, ← neg_iff]
    cases dec s.params.signZeroTest (s.readSlot x) with
    | ok k => exact ⟨_, rfl, by simp⟩
    | ovf c => exact ⟨_, rfl, by simp, fun _ => ⟨x, decoder⟩, by simp, by simp⟩
  · exact ⟨_, exec_sgn x s, by simp⟩
  · exact ⟨_, exec_eq s, by simp⟩

/-! ### A command run twice (R56) -/

theorem succeed_writeSlot_idem (s : State) (x : Slot) (r : Rep) :
    ((s.writeSlot x r).succeed.writeSlot x r).succeed = (s.writeSlot x r).succeed := by
  cases x <;> rfl

/-- A decoder's end, run again, writes the same DATA or raises the same overflow. -/
theorem finishDecode_idem {toData : Int → Word64} {res : DecResult} {s t : State}
    (h : finishDecode toData res s = .next t) : finishDecode toData res t = .next t := by
  obtain ⟨k, rfl, rfl⟩ | ⟨c, rfl, rfl⟩ := finishDecode_cases h <;> rfl

/-! ### What a slot holds after a command -/

theorem readSlot_writeSlot_of_ne (s : State) {x y : Slot} (r : Rep) (h : y ≠ x) :
    (s.writeSlot x r).readSlot y = s.readSlot y :=
  readSlot_congr (setSlot_slot_of_ne s _ h)

/-- A decoder's end sees of the state DATA and STATUS alone. -/
theorem finishDecode_congr {toData : Int → Word64} {res : DecResult} {s s' t t' : State} (hd : s.data = s'.data)
    (hs : s.status = s'.status) (h : finishDecode toData res s = .next t) (h' : finishDecode toData res s' = .next t') :
    t.data = t'.data ∧ t.status = t'.status := by
  cases res with
  | ok k =>
    obtain rfl := Host.Outcome.next.inj h
    obtain rfl := Host.Outcome.next.inj h'
    simp [hs]
  | ovf c =>
    obtain rfl := Host.Outcome.next.inj h
    obtain rfl := Host.Outcome.next.inj h'
    simp [hd, hs]

/-! ### A decoder after its encoder (R273) -/

/-- A decoder that answers OK on the representation the encoder stored writes that number to DATA. -/
theorem decode_after_encode {i j : Instr} {x : Slot} {r : Rep} {s : State} {toData : Int → Word64}
    {dec : SignZeroTest → Rep → DecResult} {k : Int} {d : Word64} (hi : exec i s = finishEncode x r s)
    (hj : ∀ t, exec j t = finishDecode toData (dec t.params.signZeroTest (t.readSlot x)) t)
    (hk : ∀ z, dec z r = .ok k) (hd : toData k = d) :
    ∀ t, exec i s = .next t → ∃ u, exec j t = .next u ∧ u.data = d ∧ u.status.ovf = false := by
  intro t ht
  rw [hi] at ht
  obtain rfl := Host.Outcome.next.inj ht
  rw [hj, readSlot_succeed, readSlot_writeSlot, hk, finishDecode_ok, hd]
  exact ⟨_, rfl, rfl, rfl⟩

theorem sext64_nativeI32 (d : Word64) : sext64 (nativeI32 d) = (d.extractLsb' 0 32).signExtend 64 := by
  rw [sext64, nativeI32, BitVec.ofInt_toInt, dataLo]

theorem zext64_nativeU32 (d : Word64) : zext64 (nativeU32 d) = (d.extractLsb' 0 32).setWidth 64 := by
  rw [zext64, nativeU32, BitVec.ofInt_natCast, BitVec.ofNat_toNat, BitVec.setWidth_eq, dataLo]

theorem bv64_nativeI64 (d : Word64) : bv64 (nativeI64 d) = d := by
  rw [bv64, nativeI64, BitVec.ofInt_toInt]

theorem bv64_nativeU64 (d : Word64) : bv64 (nativeU64 d) = d := by
  rw [bv64_natCast, nativeU64, BitVec.ofNat_toNat, BitVec.setWidth_eq]

/-! ### The obligations of 60_exceptions.md, 20_memory.md §3, 10_state.md §2 and 70_reset_and_hazards.md §3 -/

/-- Settles O42: an illegal word raises ILL alone, and `exec_outcome` is the outcome of a legal one. -/
theorem onlyFourOutcomeCodes : Obligations.OnlyFourOutcomeCodes := by
  intro w s
  cases hw : decodeWord w with
  | reject r =>
    exact ⟨_, executeCommand_of_reject hw s, toWord_mod_eight_mem (by simp) (by simp), by simp, by simp, by simp⟩
  | command i =>
    obtain ⟨t, ht, legal, ovf, neg_ovf, neg⟩ := exec_outcome i s
    refine ⟨t, (executeCommand_of_command hw s).trans ht, ?code, by simp [legal], ?overflow, ?negative⟩
    case code => exact toWord_mod_eight_mem neg_ovf (by simp [legal])
    case overflow => simpa only [Decoded.command.injEq, IsDecoder] using ovf
    case negative => simpa only [Decoded.command.injEq] using neg

/-- Settles O43: what a command reads is none of what it writes, or is what it wrote. -/
theorem commandsAreIdempotent : Obligations.CommandsAreIdempotent := by
  intro i s t ran
  obtain ⟨x, encoder⟩ | ⟨x, decoder⟩ | ⟨x, rfl⟩ | rfl := instr_kinds i
  · obtain ⟨enc, -, hexec⟩ := exec_of_isEncoder encoder
    rw [hexec] at ran
    obtain rfl := Host.Outcome.next.inj ran
    rw [hexec, State.succeed_data, State.writeSlot_data, succeed_writeSlot_idem]
  · obtain ⟨toData, dec, hexec, -⟩ := exec_of_isDecoder decoder
    rw [hexec] at ran
    obtain ⟨hp, hslot, -⟩ := finishDecode_frame ran
    rw [hexec, hp, readSlot_congr (hslot x)]
    exact finishDecode_idem ran
  · rw [exec_sgn] at ran
    obtain rfl := Host.Outcome.next.inj ran
    simp [exec_sgn]
  · rw [exec_eq] at ran
    obtain rfl := Host.Outcome.next.inj ran
    simp [exec_eq]

/-- Settles O44: every command sees a slot through `State.readSlot`, which the two states share. -/
theorem unusedHeadWordsAreNeverRead : Obligations.UnusedHeadWordsAreNeverRead := by
  intro i s s' t t' hp hd hs hread ran ran'
  obtain ⟨x, encoder⟩ | ⟨x, decoder⟩ | ⟨x, rfl⟩ | rfl := instr_kinds i
  · obtain ⟨enc, -, hexec⟩ := exec_of_isEncoder encoder
    rw [hexec] at ran ran'
    obtain rfl := Host.Outcome.next.inj ran
    obtain rfl := Host.Outcome.next.inj ran'
    refine ⟨by simp [hd], by simp [hs], fun y => ?_⟩
    rw [readSlot_succeed, readSlot_succeed]
    by_cases h : y = x
    · rw [h, readSlot_writeSlot, readSlot_writeSlot, hd]
    · rw [readSlot_writeSlot_of_ne s _ h, readSlot_writeSlot_of_ne s' _ h, hread]
  · obtain ⟨toData, dec, hexec, -⟩ := exec_of_isDecoder decoder
    rw [hexec] at ran ran'
    rw [← hp, ← hread] at ran'
    obtain ⟨-, hslot, -⟩ := finishDecode_frame ran
    obtain ⟨-, hslot', -⟩ := finishDecode_frame ran'
    obtain ⟨hdata, hstatus⟩ := finishDecode_congr hd hs ran ran'
    exact ⟨hdata, hstatus, fun y => by rw [readSlot_congr (hslot y), readSlot_congr (hslot' y), hread]⟩
  · rw [exec_sgn] at ran ran'
    obtain rfl := Host.Outcome.next.inj ran
    obtain rfl := Host.Outcome.next.inj ran'
    exact ⟨hd, by simp [hs, hp, hread], fun y => by simp [hread]⟩
  · rw [exec_eq] at ran ran'
    obtain rfl := Host.Outcome.next.inj ran
    obtain rfl := Host.Outcome.next.inj ran'
    exact ⟨hd, by simp [hs, hread], fun y => by simp [hread]⟩

/-- Settles O45: each decoder undoes its encoder (`roundTripsAndBoundaries`), and its form of DATA is the native
value's. -/
theorem decoderAfterEncoderGivesDataBack : Obligations.DecoderAfterEncoderGivesDataBack := by
  intro s x
  refine ⟨?i32, ?u32, ?i64, ?u64⟩
  case i32 =>
    obtain ⟨lo, hi⟩ := nativeI32_range s.data
    refine decode_after_encode rfl (exec_decI32 x) (fun z => ?_) (sext64_nativeI32 s.data)
    obtain ⟨roundTrip, -⟩ := roundTripsAndBoundaries z
    exact roundTrip _ lo hi
  case u32 =>
    refine decode_after_encode rfl (exec_decU32 x) (fun z => ?_) (zext64_nativeU32 s.data)
    obtain ⟨-, roundTrip, -⟩ := roundTripsAndBoundaries z
    exact roundTrip _ (nativeU32_range s.data)
  case i64 =>
    obtain ⟨lo, hi⟩ := nativeI64_range s.data
    refine decode_after_encode rfl (exec_decI64 x) (fun z => ?_) (bv64_nativeI64 s.data)
    obtain ⟨-, -, roundTrip, -⟩ := roundTripsAndBoundaries z
    exact roundTrip _ lo hi
  case u64 =>
    refine decode_after_encode rfl (exec_decU64 x) (fun z => ?_) (bv64_nativeU64 s.data)
    obtain ⟨-, -, -, roundTrip, -⟩ := roundTripsAndBoundaries z
    exact roundTrip _ (nativeU64_range s.data)

end Sys2Proof.Machine
end

section
/-! PROOFS. Reset, and the invariant of parameters, slots and STATUS along every step (spec 70_reset_and_hazards.md
R270, 10_state.md R20 to R33, 60_exceptions.md R242). -/

namespace Sys2Proof.Machine

/-! ### Reset (R270) -/

@[simp] theorem headWord_platformReset (s : State) (x : Slot) (i : Nat) : s.platformReset.headWord x i = 0 := by
  simp only [State.headWord, State.platformReset_slot, SlotRegs.reset_head, List.getD_eq_getElem?_getD,
    List.getElem?_replicate]
  split <;> rfl

theorem toWord_reset : Status.reset.toWord = 0 := by decide

theorem readReg_platformReset (s : State) {q : WindowReg} (h : q ≠ .caps) : s.platformReset.readReg q = 0 := by
  cases q with
  | cmd => rfl
  | status => exact toWord_reset
  | dataLo => exact (by decide : dataLo 0 = 0)
  | dataHi => exact (by decide : dataHi 0 = 0)
  | caps => exact absurd rfl h
  | tail x => simp [State.readReg]
  | hlen x => simp [State.readReg]
  | head x i => exact headWord_platformReset s x i
  | reserved => rfl

/-- CAPS stands at one offset, so every other one reads 0 after a reset. -/
theorem windowRead_platformReset (s : State) {o : Nat} (h : o ≠ 0x010) : s.platformReset.windowRead o = 0 := by
  refine readReg_platformReset s fun caps => h ?_
  have offset := regOffset_windowReg (by rw [caps]; exact nofun)
  rw [caps] at offset
  exact offset.symm

theorem slotReset_wellFormed (cap : Nat) : (SlotRegs.reset cap).WellFormed cap := by
  simp [SlotRegs.WellFormed]

theorem statusReset_wellFormed : Status.reset.WellFormed := by decide

/-! ### The parts of the invariant -/

theorem inv_of_parts {s : State} (hp : s.params.WellFormed) (hx : ∀ x, (s.slot x).WellFormed s.params.headCap)
    (hf : s.status.WellFormed) : s.Inv :=
  ⟨hp, hx .a, hx .b, hf⟩

theorem params_wellFormed {s : State} (h : s.Inv) : s.params.WellFormed := by
  obtain ⟨hp, -⟩ := h
  exact hp

theorem status_wellFormed {s : State} (h : s.Inv) : s.status.WellFormed := by
  obtain ⟨-, -, -, hf⟩ := h
  exact hf

theorem inv_resetWith {p : Params} (h : p.WellFormed) : (State.resetWith p).Inv :=
  ⟨h, slotReset_wellFormed _, slotReset_wellFormed _, statusReset_wellFormed⟩

theorem inv_platformReset {s : State} (h : s.Inv) : s.platformReset.Inv :=
  inv_resetWith (p := s.params) (params_wellFormed h)

theorem inv_setSlot {s : State} (h : s.Inv) (x : Slot) {r : SlotRegs} (hr : r.WellFormed s.params.headCap) :
    (s.setSlot x r).Inv := by
  have slots (y : Slot) : ((s.setSlot x r).slot y).WellFormed s.params.headCap := by
    by_cases hy : y = x
    · rw [hy, State.setSlot_slot]
      exact hr
    · rw [setSlot_slot_of_ne s r hy]
      exact slot_wellFormed h y
  refine inv_of_parts ?params ?slots ?status
  case params =>
    rw [State.setSlot_params]
    exact params_wellFormed h
  case slots =>
    rw [State.setSlot_params]
    exact slots
  case status =>
    rw [State.setSlot_status]
    exact status_wellFormed h

theorem inv_withStatus {s : State} (h : s.Inv) {f : Status} (hf : f.WellFormed) :
    State.Inv { s with status := f } := by
  obtain ⟨hp, hA, hB, -⟩ := h
  exact ⟨hp, hA, hB, hf⟩

/-! ### STATUS after each outcome (R30, R242) -/

theorem succeed_wellFormed {f : Status} (h : f.sgn ≠ 0b10) : f.succeed.WellFormed := by
  simpa [Status.WellFormed] using h

theorem overflow_wellFormed (c : OverflowCause) {f : Status} (h : f.WellFormed) : (f.overflow c).WellFormed := by
  obtain ⟨-, -, hs⟩ := h
  simpa [Status.WellFormed] using hs

theorem illegal_wellFormed {f : Status} (h : f.WellFormed) : f.illegal.WellFormed := by
  obtain ⟨-, -, hs⟩ := h
  simpa [Status.WellFormed] using hs

theorem signCode_ne_reserved (n : Sign) : signCode n ≠ 0b10 := by
  cases n <;> decide

/-! ### Commands and accesses keep the invariant -/

theorem inv_succeed {s : State} (h : s.Inv) : s.succeed.Inv := by
  obtain ⟨-, -, hs⟩ := status_wellFormed h
  exact inv_withStatus h (succeed_wellFormed hs)

theorem exec_inv {i : Instr} {s t : State} (h : s.Inv) (ran : exec i s = .next t) : t.Inv := by
  obtain ⟨-, -, hs⟩ := status_wellFormed h
  obtain ⟨x, encoder⟩ | ⟨x, decoder⟩ | ⟨x, rfl⟩ | rfl := instr_kinds i
  · obtain ⟨enc, short, hexec⟩ := exec_of_isEncoder encoder
    rw [hexec] at ran
    obtain rfl := Host.Outcome.next.inj ran
    obtain ⟨two, -⟩ := params_wellFormed h
    exact inv_succeed (inv_setSlot h x (slotOfRep_wellFormed ((short s.data).trans two)))
  · obtain ⟨toData, dec, hexec, -⟩ := exec_of_isDecoder decoder
    rw [hexec] at ran
    obtain ⟨k, -, rfl⟩ | ⟨c, -, rfl⟩ := finishDecode_cases ran
    · exact inv_succeed (s := { s with data := toData k }) h
    · exact inv_withStatus h (overflow_wellFormed c (status_wellFormed h))
  · obtain rfl := Host.Outcome.next.inj ran
    exact inv_withStatus h (succeed_wellFormed (signCode_ne_reserved _))
  · obtain rfl := Host.Outcome.next.inj ran
    exact inv_withStatus h (succeed_wellFormed hs)

theorem executeCommand_inv {w : Word32} {s t : State} (h : s.Inv) (ran : executeCommand w s = .next t) : t.Inv := by
  cases hw : decodeWord w with
  | command i =>
    rw [executeCommand_of_command hw] at ran
    exact exec_inv h ran
  | reject r =>
    rw [executeCommand_of_reject hw] at ran
    obtain rfl := Host.Outcome.next.inj ran
    exact inv_withStatus h (illegal_wellFormed (status_wellFormed h))

theorem writeReg_inv {s : State} (h : s.Inv) (v : Word32) (q : WindowReg) : (s.writeReg v q).Inv := by
  cases q with
  | cmd => exact h
  | status => exact h
  | dataLo => exact h
  | dataHi => exact h
  | caps => exact h
  | tail x => exact inv_setSlot h x (slot_wellFormed h x)
  | hlen x =>
    obtain ⟨-, hhead⟩ := slot_wellFormed h x
    rw [State.writeReg]
    split
    next fits => exact inv_setSlot h x ⟨fits, hhead⟩
    next => exact h
  | head x i =>
    obtain ⟨hbound, hhead⟩ := slot_wellFormed h x
    exact inv_setSlot h x ⟨hbound, List.length_set.trans hhead⟩
  | reserved => exact h

theorem performAccess_inv {a : HostAccess} {s t : State} (h : s.Inv) (ran : performAccess a s = .next t) : t.Inv := by
  obtain ⟨offset, -, rfl⟩ | ⟨offset, v, -, ran | rfl⟩ | ⟨-, rfl⟩ := performAccess_cases ran
  · exact h
  · exact executeCommand_inv h ran
  · exact writeReg_inv h v _
  · exact inv_platformReset h

/-! ### The obligations of 70_reset_and_hazards.md §1 and 10_state.md -/

/-- Settles O48: the idle step changes nothing, and every access that completes keeps the invariant. -/
theorem everyStepKeepsTheInvariant : Obligations.EveryStepKeepsTheInvariant := by
  intro s t h ran
  cases hi : s.inputs with
  | nil =>
    rw [step_of_no_inputs hi] at ran
    obtain rfl := Host.Outcome.next.inj ran
    exact h
  | cons a rest =>
    rw [step_of_inputs hi] at ran
    exact performAccess_inv (s := { s with inputs := rest }) h ran

/-- Settles O47: each part of the reset state is well formed, and CAPS of the defaults is evaluated. -/
theorem resetStateMeetsTheInvariant : Obligations.ResetStateMeetsTheInvariant :=
  ⟨fun _ => inv_resetWith, inv_resetWith (by decide), rfl, rfl⟩

/-- Settles O46: the step is `State.platformReset` of the state whose list has lost the reset. -/
theorem resetZeroesEveryRegister : Obligations.ResetZeroesEveryRegister := by
  intro s rest pending
  have stepped : step s = .next (State.platformReset { s with inputs := rest }) := step_of_inputs pending
  exact ⟨_, stepped, rfl, by simp, headWord_platformReset _, by simp, toWord_reset, rfl,
    fun o => windowRead_platformReset _, readSlot_platformReset _, by decide, rfl, rfl⟩

end Sys2Proof.Machine
end

section
/-! PROOFS. The magnitude and the value by the limb weights (spec 40_layout_pack_unpack.md R112 to R114). -/

namespace Sys2Proof.Machine

theorem val_of_mag_eq_none {r : Rep} (h : mag r = none) : val r = none := by
  rw [val, h]
  rfl

/-- Settles O17: the magnitude by the shape of the head, and the sign bit where the magnitude is not 0. -/
theorem magnitudeAndValueByLimbWeights : Obligations.MagnitudeAndValueByLimbWeights := by
  refine ⟨fun t => ?noWord, fun t h0 => ?oneWord, fun t h0 h1 small => ?twoWords, fun t h0 h1 large => ?tooLarge,
    fun r long => ?tooLong, fun r m hm zero => ?zero, fun r m hm _ bit => ?negative, fun r m hm _ bit => ?positive,
    fun r => val_of_mag_eq_none⟩
  case noWord => rw [mag_of_head_nil rfl, base_eq_mod]
  case oneWord => rw [mag_of_head_one rfl, base_eq_mod]
  case twoWords => rw [mag_of_head_two rfl small, base_eq_mod]
  case tooLarge => exact (mag_eq_none_iff _).2 (.inr ⟨rfl, large⟩)
  case tooLong => exact (mag_eq_none_iff r).2 (.inl long)
  case zero =>
    rw [val_of_mag hm, zero]
    simp
  case negative =>
    rw [val_of_mag hm, sbit, bit]
    rfl
  case positive =>
    rw [val_of_mag hm, sbit, bit]
    rfl

end Sys2Proof.Machine
end

section
/-! PROOFS. The accesses of LDREP and RDREP, run one by one (spec 30_encoding.md R90, R91). -/

namespace Sys2Proof.Machine

/-! ### The head registers of a slot, replaced -/

/-- The state with the head registers of slot `x` replaced. -/
def withHead (s : State) (x : Slot) (l : List Word32) : State := s.setSlot x { s.slot x with head := l }

theorem setSlot_withInputs (s : State) (x : Slot) (r : SlotRegs) (pending : List HostAccess) :
    State.setSlot { s with inputs := pending } x r = { s.setSlot x r with inputs := pending } := by
  cases x <;> rfl

theorem withHead_withInputs (s : State) (x : Slot) (l : List Word32) (pending : List HostAccess) :
    withHead { s with inputs := pending } x l = { withHead s x l with inputs := pending } := by
  cases x <;> rfl

@[simp] theorem withHead_withHead (s : State) (x : Slot) (l k : List Word32) :
    withHead (withHead s x l) x k = withHead s x k := by
  cases x <;> rfl

@[simp] theorem withHead_same (s : State) (x : Slot) : withHead s x (s.slot x).head = s := State.setSlot_same s x

@[simp] theorem withHead_head (s : State) (x : Slot) (l : List Word32) : ((withHead s x l).slot x).head = l := by
  rw [withHead, State.setSlot_slot]

@[simp] theorem withHead_params (s : State) (x : Slot) (l : List Word32) : (withHead s x l).params = s.params :=
  State.setSlot_params s x _

theorem withHead_inv {s : State} (h : s.Inv) (x : Slot) {l : List Word32} (hl : l.length = s.params.headCap) :
    (withHead s x l).Inv := by
  obtain ⟨hbound, -⟩ := slot_wellFormed h x
  exact inv_setSlot h x ⟨hbound, hl⟩

/-! ### Accesses at the offsets of a slot -/

theorem accessRefusal_slotBase_add (x : Slot) {rel : Nat} (aligned : rel % 4 = 0) (inside : rel < 0x40) :
    accessRefusal (slotBase x + rel) 4 = none := by
  obtain ⟨baseAligned, base⟩ := slotBase_aligned_le x
  rw [accessRefusal_eq_none_iff]
  omega

theorem memWrite_tail (s : State) (x : Slot) (v : Word32) :
    memWrite (slotBase x) 4 v s = .next (s.setSlot x { s.slot x with tail := v }) := by
  have legal : accessRefusal (slotBase x) 4 = none := accessRefusal_slotBase_add x (rel := 0) rfl (by omega)
  rw [memWrite_legal _ _ _ legal, windowReg_tail, if_neg nofun, State.writeReg]

theorem memWrite_head {s : State} (x : Slot) {i : Nat} (hi : i < s.params.headCap) (hcap : s.params.headCap ≤ 12)
    (v : Word32) : memWrite (headOffset x i) 4 v s =
      .next (withHead s x ((s.slot x).head.set i v)) := by
  have legal : accessRefusal (slotBase x + 0x10 + 4 * i) 4 = none := by
    rw [Nat.add_assoc]
    exact accessRefusal_slotBase_add x (by omega) (by omega)
  rw [headOffset, memWrite_legal _ _ _ legal, windowReg_head x hi (by omega), if_neg nofun, State.writeReg, withHead]

/-! ### Runs of writes -/

/-- A pending write is performed whole by the next step, and the run goes on from the state it leaves. -/
theorem run_write {s t : State} {offset : Nat} {v : Word32} {rest : List HostAccess} (n : Nat)
    (h : memWrite offset 4 v { s with inputs := rest } = .next t) :
    State.run { s with inputs := wrAccess offset v :: rest } (n + 1) = t.run n :=
  run_succ_of_step n h

theorem run_tailWrite (n : Nat) (s : State) (x : Slot) (v : Word32) (rest : List HostAccess) :
    State.run { s with inputs := wrAccess (slotBase x) v :: rest } (n + 1) =
      State.run { s.setSlot x { s.slot x with tail := v } with inputs := rest } n :=
  run_write n (by rw [memWrite_tail, setSlot_withInputs, State.slot_withInputs])

theorem run_hlenWrite (n : Nat) {s : State} {x : Slot} {k : Nat} {rest : List HostAccess}
    (fits : k ≤ s.params.headCap) (hk : k < 2 ^ 32) :
    State.run { s with inputs := wrAccess (slotBase x + 0x04) (BitVec.ofNat 32 k) :: rest } (n + 1) =
      State.run { s.setSlot x { s.slot x with hlen := k } with inputs := rest } n := by
  have word : (BitVec.ofNat 32 k).toNat = k := by rw [BitVec.toNat_ofNat, Nat.mod_eq_of_lt hk]
  exact run_write n (by rw [memWrite_hlen, word, if_pos fits, setSlot_withInputs, State.slot_withInputs])

theorem run_headWrite (n : Nat) {s : State} (h : s.Inv) (x : Slot) {i : Nat} (hi : i < s.params.headCap) (v : Word32)
    (rest : List HostAccess) : State.run { s with inputs := wrAccess (headOffset x i) v :: rest } (n + 1) =
      State.run { withHead s x ((s.slot x).head.set i v) with inputs := rest } n :=
  run_write n (by
    rw [memWrite_head (s := { s with inputs := rest }) x hi (headCap_le h), withHead_withInputs, State.slot_withInputs])

/-- The head registers after the words `ws` are written from index `i` on. -/
def storeWords (head : List Word32) (i : Nat) (ws : List Word32) : List Word32 :=
  head.take i ++ ws ++ head.drop (i + ws.length)

theorem storeWords_nil (head : List Word32) (i : Nat) : storeWords head i [] = head := by
  simp [storeWords]

theorem storeWords_cons {head : List Word32} {i : Nat} (h : i < head.length) (w : Word32) (ws : List Word32) :
    storeWords head i (w :: ws) = storeWords (head.set i w) (i + 1) ws := by
  have front : (head.set i w).take (i + 1) = head.take i ++ [w] := by
    rw [List.set_eq_take_append_cons_drop, if_pos h, List.take_append]
    simp [Nat.min_eq_left h.le]
  have back : (head.set i w).drop (i + 1 + ws.length) = head.drop (i + 1 + ws.length) :=
    List.drop_set_of_lt (by omega)
  rw [storeWords, storeWords, front, back, List.length_cons, Nat.add_right_comm, Nat.add_assoc]
  simp

/-- Written from index 0 on, the words are the first of the registers. -/
theorem take_storeWords_zero (head ws : List Word32) : (storeWords head 0 ws).take ws.length = ws := by
  simp [storeWords]

/-- The head writes of LDREP store their words and leave the rest of the run to go on. -/
theorem run_headWrites (x : Slot) (n : Nat) (rest : List HostAccess) (ws : List Word32) :
    ∀ (i : Nat) (s : State), s.Inv → i + ws.length ≤ s.params.headCap →
      State.run { s with inputs := headWrites x i ws ++ rest } (ws.length + n) =
        State.run { withHead s x (storeWords (s.slot x).head i ws) with inputs := rest } n := by
  induction ws with
  | nil =>
    intro i s _ _
    rw [storeWords_nil, withHead_same, headWrites, List.nil_append, List.length_nil, Nat.zero_add]
  | cons w ws ih =>
    intro i s hinv fits
    rw [List.length_cons] at fits
    obtain ⟨-, hlen⟩ := slot_wellFormed hinv x
    have inRange : i < s.params.headCap := by omega
    have written : (withHead s x ((s.slot x).head.set i w)).Inv := withHead_inv hinv x (List.length_set.trans hlen)
    calc State.run { s with inputs := headWrites x i (w :: ws) ++ rest } ((w :: ws).length + n)
      _ = State.run { withHead s x ((s.slot x).head.set i w) with inputs := headWrites x (i + 1) ws ++ rest }
            (ws.length + n) := by
        rw [List.length_cons, Nat.add_right_comm, headWrites, List.cons_append, run_headWrite _ hinv x inRange]
      _ = State.run { withHead s x (storeWords ((s.slot x).head.set i w) (i + 1) ws) with inputs := rest } n := by
        rw [ih (i + 1) _ written (by rw [withHead_params]; omega), withHead_head, withHead_withHead]
      _ = State.run { withHead s x (storeWords (s.slot x).head i (w :: ws)) with inputs := rest } n := by
        rw [storeWords_cons (by omega)]

theorem expand_ldrep (s : State) (x : Slot) (tail : Word32) (head : List Word32) (rest : List HostAccess) :
    (HostStmt.ldrep x tail head).expand s ++ rest = wrAccess (slotBase x) tail ::
      (headWrites x 0 head ++ wrAccess (slotBase x + 0x04) (BitVec.ofNat 32 head.length) :: rest) := by
  simp [HostStmt.expand]

/-- The registers LDREP leaves in the slot; the words beyond the new head keep what they held. -/
theorem run_ldrep {s : State} (x : Slot) (tail : Word32) {head : List Word32} (h : s.Inv)
    (fits : head.length ≤ s.params.headCap) : (s.issue (.ldrep x tail head)).run (head.length + 2) =
      .next (s.setSlot x ⟨tail, head.length, storeWords (s.slot x).head 0 head⟩) := by
  have hcap := headCap_le h
  have tailWritten : (s.setSlot x { s.slot x with tail := tail }).Inv := inv_setSlot h x (slot_wellFormed h x)
  rw [State.issue, expand_ldrep, run_tailWrite (head.length + 1),
    run_headWrites x 1 _ head 0 _ tailWritten (by rw [State.setSlot_params]; omega),
    run_hlenWrite 0 (by rw [withHead_params, State.setSlot_params]; exact fits) (by omega), run_zero]
  cases x <;> rfl

/-! ### Runs of reads -/

/-- Legal reads report their registers in order and change nothing else. -/
theorem run_reads (offsets : List Nat) (rest : List HostAccess) :
    ∀ s : State, (∀ o ∈ offsets, accessRefusal o 4 = none) →
      State.run { s with inputs := offsets.map rdAccess ++ rest } offsets.length =
        .next { s with inputs := rest, trace := s.trace ++ offsets.map s.windowRead } := by
  induction offsets with
  | nil =>
    intro s _
    simp
  | cons o offsets ih =>
    intro s legal
    obtain ⟨first, others⟩ := List.forall_mem_cons.1 legal
    have stepped : step { s with inputs := (o :: offsets).map rdAccess ++ rest } =
        .next { s with inputs := offsets.map rdAccess ++ rest, trace := s.trace ++ [s.windowRead o] } :=
      memRead_legal o _ first
    rw [List.length_cons, run_succ_of_step _ stepped, ih { s with trace := s.trace ++ [s.windowRead o] } others,
      List.map_cons, List.append_assoc, List.singleton_append]
    rfl

/-- The head words a slot holds are its first HLEN registers. -/
theorem map_headWord_range {s : State} (h : s.Inv) (x : Slot) :
    (List.range (s.slot x).hlen).map (s.headWord x) = (s.readSlot x).head := by
  obtain ⟨hbound, hlen⟩ := slot_wellFormed h x
  refine List.ext_getElem? fun i => ?_
  by_cases hi : i < (s.slot x).hlen
  · rw [State.readSlot, List.getElem?_take_of_lt hi, getElem?_head h x (by omega), List.getElem?_map,
      List.getElem?_range hi, Option.map_some]
  · rw [List.getElem?_eq_none (by simp; omega), List.getElem?_eq_none (by simp [State.readSlot]; omega)]

/-- The offsets RDREP reads (R91). -/
def rdrepOffsets (s : State) (x : Slot) : List Nat :=
  slotBase x :: (slotBase x + 0x04) :: (List.range (s.slot x).hlen).map (headOffset x)

theorem expand_rdrep (s : State) (x : Slot) : (HostStmt.rdrep x).expand s = (rdrepOffsets s x).map rdAccess := by
  simp [HostStmt.expand, rdrepOffsets]

theorem rdrepOffsets_legal {s : State} (h : s.Inv) (x : Slot) :
    ∀ o ∈ rdrepOffsets s x, accessRefusal o 4 = none := by
  have hcap := headCap_le h
  obtain ⟨hbound, -⟩ := slot_wellFormed h x
  have head (i : Nat) (hi : i < (s.slot x).hlen) : accessRefusal (headOffset x i) 4 = none := by
    rw [headOffset, Nat.add_assoc]
    exact accessRefusal_slotBase_add x (by omega) (by omega)
  simpa [rdrepOffsets] using
    ⟨accessRefusal_slotBase_add x (rel := 0) rfl (by omega), accessRefusal_slotBase_add x rfl (by omega), head⟩

theorem map_windowRead_rdrepOffsets {s : State} (h : s.Inv) (x : Slot) :
    (rdrepOffsets s x).map s.windowRead =
      (s.slot x).tail :: BitVec.ofNat 32 (s.slot x).hlen :: (s.readSlot x).head := by
  obtain ⟨hbound, -⟩ := slot_wellFormed h x
  have head : (List.range (s.slot x).hlen).map (fun i => s.windowRead (headOffset x i)) =
      (List.range (s.slot x).hlen).map (s.headWord x) := by
    refine List.map_congr_left fun i hi => windowRead_head h x ?_
    rw [List.mem_range] at hi
    omega
  rw [rdrepOffsets, List.map_cons, List.map_cons, windowRead_tail, windowRead_hlen, List.map_map,
    ← map_headWord_range h x, ← head]
  rfl

/-! ### The obligations of 30_encoding.md §6 -/

/-- Settles O49: `run_ldrep`, and the first HLEN of the words it leaves are the head. -/
theorem ldrepLoadsTheRepresentation : Obligations.LdrepLoadsTheRepresentation := by
  intro s x tail head hinv fits
  refine ⟨_, run_ldrep x tail hinv fits, ?loaded, by simp, by simp, by simp, by simp, by simp, by simp⟩
  case loaded => rw [State.readSlot, State.setSlot_slot, take_storeWords_zero]

/-- Settles O50: RDREP is a run of legal reads (`run_reads`), of TAIL, HLEN and the head words. -/
theorem rdrepReportsTheRepresentation : Obligations.RdrepReportsTheRepresentation := by
  intro s x hinv
  have reads := run_reads (rdrepOffsets s x) s.inputs s (rdrepOffsets_legal hinv x)
  have count : (rdrepOffsets s x).length = (s.slot x).hlen + 2 := by simp [rdrepOffsets]
  rw [map_windowRead_rdrepOffsets hinv x, count, ← expand_rdrep] at reads
  exact reads

end Sys2Proof.Machine
end
